-- ==== Sys2Proof/Word.lean ====
section
/-! DEFINITION. The words of the machine: the widths fixed by spec/00_scope.md rule R5 and spec/10_state.md rule R10. -/

namespace Sys2Proof

/-- A byte of memory or of a wire form (R7, R30). -/
abbrev Byte := BitVec 8

/-- A register or a data word, 32 bits (R10, R34). -/
abbrev Word := BitVec 32

/-- A register index field, 7 bits: every value names a register (R12, R56). -/
abbrev RegIndex := BitVec 7

/-- The opcode field A, 7 bits (R51). -/
abbrev Opcode := BitVec 7

/-- The LoadConst `value` field, 28 bits (R56, R57). -/
abbrev Const28 := BitVec 28

/-- The NegStore `offset` field, 6 bits, counts bytes (R56, R57). -/
abbrev Offset := BitVec 6

end Sys2Proof
end

