-- ==== Sys2Proof/Config.lean ====
section
/-! DEFINITION. The implementation parameters of spec/00_scope.md rule R5 and their defaults. -/

namespace Sys2Proof

/-- FETCH_LIMIT_MODE: which bound ends instruction fetch (R5, R16, decision D4, log 3). -/
inductive FetchLimitMode where
  /-- `fetch_limit` is the length of the loaded image (the spec's choice). -/
  | image
  /-- `fetch_limit` is MEMORY_SIZE. -/
  | memory
  deriving DecidableEq, Repr

/-- CONST_POLICY: what the encoder does with a LoadConst value outside 0..2^28-1 (R5, R84, decision D3, log 13). -/
inductive ConstPolicy where
  /-- The value is out of range like any other field. -/
  | reject
  /-- The low 28 bits are encoded. -/
  | truncate
  deriving DecidableEq, Repr

/-- The parameters an engine is created with; they stay fixed for its life (R5, R180). The model holds them in State
(DESIGN CHOICE, log 1). -/
structure Params where
  /-- MEMORY_SIZE, the number of bytes of memory. -/
  memorySize : Nat
  /-- INSTRUCTION_LIMIT, the executed-instruction count at which the run is stopped. -/
  instructionLimit : Nat
  /-- FETCH_LIMIT_MODE. -/
  fetchMode : FetchLimitMode
  deriving DecidableEq, Repr

/-- The legal ranges of R5: MEMORY_SIZE from 0 to 2^32 (decision D1), INSTRUCTION_LIMIT from 1 up (decision D2). -/
abbrev Params.Legal (p : Params) : Prop :=
  p.memorySize ≤ 2 ^ 32 ∧ 1 ≤ p.instructionLimit

/-- The defaults of R5: 1 MiB (PRESUMED 1,048,576 bytes, spec item G1, log 2), 10,000 instructions, mode `image`. -/
def Params.standard : Params :=
  { memorySize := 1048576, instructionLimit := 10000, fetchMode := .image }

/-- The recommended CONST_POLICY (R5, decision D3, log 13). -/
def ConstPolicy.recommended : ConstPolicy := .reject

end Sys2Proof
end

