-- ==== Sys2Proof/Syntax.lean ====
section
/-! DEFINITION. The instructions: spec/30_encoding.md rules R50, R52, R56 and spec/40_codec.md rule R81, one constructor per
row of spec/opcode_table.json. -/

namespace Sys2Proof

/-- "A tagged value, one of four variants, each carrying only the fields its shape defines" (R81). A field has the type of
its bit width, so a value outside the width cannot be written down. Operands stand in field order B, C, D (R56). -/
inductive Instr where
  /-- LoadConst, opcode 72, 6 bytes (R120). -/
  | loadConst (destReg : RegIndex) (value : Const28)
  /-- MemRead, opcode 113, 3 bytes (R125). -/
  | memRead (destReg addrReg : RegIndex)
  /-- MemWrite, opcode 8, 3 bytes (R126). B is src_reg and C is addr_reg (decision D18, log 4). -/
  | memWrite (srcReg addrReg : RegIndex)
  /-- NegStore, opcode 91, 4 bytes (R135). -/
  | negStore (offset : Offset) (baseReg srcReg : RegIndex)
  deriving DecidableEq, Repr

end Sys2Proof
end

