-- ==== Sys2Proof/WellFormed.lean ====
section
/-! DEFINITION. The encoder's checks: which calls of `encode(a, b, c, d)` are well formed (spec/40_codec.md rules R81 to R84), and
the opcode numbers of spec/30_encoding.md rule R52 that the checks select on. -/

namespace Sys2Proof

/-- Opcode of LoadConst (R52). -/
def opLoadConst : Opcode := 72#7
/-- Opcode of MemRead (R52). -/
def opMemRead : Opcode := 113#7
/-- Opcode of MemWrite (R52). -/
def opMemWrite : Opcode := 8#7
/-- Opcode of NegStore (R52). -/
def opNegStore : Opcode := 91#7

/-- A call of the encoder: an opcode and three field values as integers, "any integer, negative included" (R82; decision D15,
log 14). `d` is ignored unless the opcode is 91. -/
structure FieldCall where
  opcode : Int
  b : Int
  c : Int
  d : Int
  deriving DecidableEq, Repr

/-- The conditions of the encoder, without payload (R82, R83, R150, R156). -/
inductive EncodeError where
  /-- The opcode is not 72, 113, 8 or 91 (R82). -/
  | unknownOpcode
  /-- A field value is outside `0 ≤ value < 2^width` (R83, R84). -/
  | fieldOutOfRange
  deriving DecidableEq, Repr

/-- `0 ≤ value < 2^width` (R83). -/
def fitsWidth (width : Nat) (value : Int) : Bool :=
  decide (0 ≤ value) && decide (value < 2 ^ width)

/-- Whether the call's opcode is the number of `op` (R82). -/
def FieldCall.isOp (f : FieldCall) (op : Opcode) : Bool :=
  decide (f.opcode = (op.toNat : Int))

/-- The constant field of LoadConst under each CONST_POLICY (R84): only `reject` asks for 28 bits. -/
def ConstPolicy.admits : ConstPolicy → Int → Bool
  | .reject, c => fitsWidth 28 c
  | .truncate, _ => true

/-- The encoder's checks in their order: the opcode, then the fields of that opcode's shape (R82, R83, R84). -/
def FieldCall.check (policy : ConstPolicy) (f : FieldCall) : Except EncodeError Unit :=
  if f.isOp opLoadConst then
    if fitsWidth 7 f.b && policy.admits f.c then .ok () else .error .fieldOutOfRange
  else if f.isOp opMemRead || f.isOp opMemWrite then
    if fitsWidth 7 f.b && fitsWidth 7 f.c then .ok () else .error .fieldOutOfRange
  else if f.isOp opNegStore then
    if fitsWidth 6 f.b && fitsWidth 7 f.c && fitsWidth 7 f.d then .ok () else .error .fieldOutOfRange
  else .error .unknownOpcode

/-- The fields of an instruction as a call of the encoder (R56); `d` is 0 where the shape has no field D. -/
def Instr.toCall : Instr → FieldCall
  | .loadConst r v => ⟨opLoadConst.toNat, r.toNat, v.toNat, 0⟩
  | .memRead r a => ⟨opMemRead.toNat, r.toNat, a.toNat, 0⟩
  | .memWrite r a => ⟨opMemWrite.toNat, r.toNat, a.toNat, 0⟩
  | .negStore o b r => ⟨opNegStore.toNat, o.toNat, b.toNat, r.toNat⟩

/-- A call is well formed when the encoder's checks pass. -/
def FieldCall.wellFormed (policy : ConstPolicy) (f : FieldCall) : Bool :=
  match f.check policy with
  | .ok _ => true
  | .error _ => false

/-- An instruction is well formed when its own fields pass the strictest checks. The fields' types make this true of every
value of Instr: R81's invariant (Laws/Codec.lean proves it). -/
def Instr.wellFormed (i : Instr) : Bool := i.toCall.wellFormed .reject

end Sys2Proof
end

