-- ==== Sys2Proof/Decode.lean ====
section
/-! DEFINITION. The codec: spec/40_codec.md rules R80 to R98 over the layouts of spec/30_encoding.md rules R53 to R55. The decoder
comes first, the encoder after it. `BitVec.extractLsb hi lo v` is the spec's `v[hi:lo]` (R7) and `++` its `‖`. -/

namespace Sys2Proof

/-- The conditions of the decoder (R89, R150). It has no FieldOutOfRange (R96). -/
inductive DecodeError where
  /-- An empty window (R90, decision D16, log 26). -/
  | endOfProgram
  /-- The 7-bit opcode is not 72, 113, 8 or 91 (R91). -/
  | unknownOpcode
  /-- The opcode is recognised and fewer bytes are present than its size (R92). -/
  | truncatedInstruction
  deriving DecidableEq, Repr

/-- Field A is `byte0[6:0]` in every shape (R51, conflict C2, log 27). -/
def opcodeOf (byte0 : Byte) : Opcode := byte0.extractLsb 6 0

/-- `size(A)`, undefined for the 124 unrecognised values (R52, R59). -/
def opcodeSize (a : Opcode) : Option Nat :=
  if a = opLoadConst then some 6
  else if a = opMemRead then some 3
  else if a = opMemWrite then some 3
  else if a = opNegStore then some 4
  else none

/-- Fields B and C of layout L6 (R53, R93). -/
def unpackL6 (w0 w1 w2 w3 w4 w5 : Byte) : RegIndex × Const28 :=
  (w0.extractLsb 7 7 ++ w1.extractLsb 5 0,
   w1.extractLsb 7 6 ++ w2 ++ w3 ++ w4 ++ w5.extractLsb 5 4)

/-- Fields B and C of layout M3 (R54, R94). -/
def unpackM3 (w0 w1 w2 : Byte) : RegIndex × RegIndex :=
  (w0.extractLsb 7 7 ++ w1.extractLsb 5 0,
   w1.extractLsb 7 6 ++ w2.extractLsb 4 0)

/-- Fields B, C and D of layout N4 (R55, R95). -/
def unpackN4 (w0 w1 w2 w3 : Byte) : Offset × RegIndex × RegIndex :=
  (w0.extractLsb 7 7 ++ w1.extractLsb 4 0,
   w1.extractLsb 7 5 ++ w2.extractLsb 3 0,
   w2.extractLsb 7 4 ++ w3.extractLsb 2 0)

/-- LoadConst from byte0 and the bytes after it, where all six are present (R93). -/
def readLoadConst (w0 : Byte) : List Byte → Option Instr
  | w1 :: w2 :: w3 :: w4 :: w5 :: _ =>
    let f := unpackL6 w0 w1 w2 w3 w4 w5
    some (.loadConst f.1 f.2)
  | _ => none

/-- MemRead from byte0 and the bytes after it, where all three are present (R94). -/
def readMemRead (w0 : Byte) : List Byte → Option Instr
  | w1 :: w2 :: _ =>
    let f := unpackM3 w0 w1 w2
    some (.memRead f.1 f.2)
  | _ => none

/-- MemWrite from byte0 and the bytes after it, where all three are present (R94; B is src_reg by decision D18, log 4). -/
def readMemWrite (w0 : Byte) : List Byte → Option Instr
  | w1 :: w2 :: _ =>
    let f := unpackM3 w0 w1 w2
    some (.memWrite f.1 f.2)
  | _ => none

/-- NegStore from byte0 and the bytes after it, where all four are present (R95). -/
def readNegStore (w0 : Byte) : List Byte → Option Instr
  | w1 :: w2 :: w3 :: _ =>
    let f := unpackN4 w0 w1 w2 w3
    some (.negStore f.1 f.2.1 f.2.2)
  | _ => none

/-- An instruction with its size, or TruncatedInstruction where its bytes are not all present (R92). -/
def orTruncated (size : Nat) : Option Instr → Except DecodeError (Instr × Nat)
  | some i => .ok (i, size)
  | none => .error .truncatedInstruction

/-- `decode(w)`: byte 0 first, then the opcode, then the length, then the fields (R89 to R95). Bytes after the instruction and
reserved bits are not looked at (R96). -/
def decode : List Byte → Except DecodeError (Instr × Nat)
  | [] => .error .endOfProgram
  | w0 :: rest =>
    if opcodeOf w0 = opLoadConst then orTruncated 6 (readLoadConst w0 rest)
    else if opcodeOf w0 = opMemRead then orTruncated 3 (readMemRead w0 rest)
    else if opcodeOf w0 = opMemWrite then orTruncated 3 (readMemWrite w0 rest)
    else if opcodeOf w0 = opNegStore then orTruncated 4 (readNegStore w0 rest)
    else .error .unknownOpcode

/-- Layout L6 packed for an opcode (R53, R85). -/
def packL6 (a : Opcode) (b : RegIndex) (c : Const28) : List Byte :=
  [b.extractLsb 6 6 ++ a,
   c.extractLsb 27 26 ++ b.extractLsb 5 0,
   c.extractLsb 25 18,
   c.extractLsb 17 10,
   c.extractLsb 9 2,
   0#2 ++ c.extractLsb 1 0 ++ 0#4]

/-- Layout M3 packed for an opcode (R54, R86). -/
def packM3 (a : Opcode) (b c : RegIndex) : List Byte :=
  [b.extractLsb 6 6 ++ a,
   c.extractLsb 6 5 ++ b.extractLsb 5 0,
   0#3 ++ c.extractLsb 4 0]

/-- Layout N4 packed for an opcode (R55, R87). -/
def packN4 (a : Opcode) (b : Offset) (c d : RegIndex) : List Byte :=
  [b.extractLsb 5 5 ++ a,
   c.extractLsb 6 4 ++ b.extractLsb 4 0,
   d.extractLsb 6 3 ++ c.extractLsb 3 0,
   0#5 ++ d.extractLsb 2 0]

/-- The wire form of an instruction, every reserved bit 0 (R58, R85 to R88). -/
def encode : Instr → List Byte
  | .loadConst r v => packL6 opLoadConst r v
  | .memRead r a => packM3 opMemRead r a
  | .memWrite r a => packM3 opMemWrite r a
  | .negStore o b r => packN4 opNegStore o b r

/-- The instruction a checked call stands for: each integer in its field's width. For the LoadConst constant that is
`c mod 2^28` (R84, decision D24, log 14); every other field is already in range. The last arm is opcode 91, since the checks
have refused any other opcode. -/
def FieldCall.toInstr (f : FieldCall) : Instr :=
  if f.isOp opLoadConst then .loadConst (BitVec.ofInt 7 f.b) (BitVec.ofInt 28 f.c)
  else if f.isOp opMemRead then .memRead (BitVec.ofInt 7 f.b) (BitVec.ofInt 7 f.c)
  else if f.isOp opMemWrite then .memWrite (BitVec.ofInt 7 f.b) (BitVec.ofInt 7 f.c)
  else .negStore (BitVec.ofInt 6 f.b) (BitVec.ofInt 7 f.c) (BitVec.ofInt 7 f.d)

/-- `encode(a, b, c, d)` under a CONST_POLICY: the checks, then the bytes, all or nothing (R82 to R88). -/
def encodeFields (policy : ConstPolicy) (f : FieldCall) : Except EncodeError (List Byte) :=
  match f.check policy with
  | .ok _ => .ok (encode f.toInstr)
  | .error e => .error e

/-- The packer with its inputs on 32-bit unsigned ports, where a negative integer `n` appears as `n + 2^32` (R82, decision D15,
log 14). -/
def encodePorts (policy : ConstPolicy) (a b c d : Word) : Except EncodeError (List Byte) :=
  encodeFields policy ⟨a.toNat, b.toNat, c.toNat, d.toNat⟩

/-- A program image: the wire forms in program order, no header, no padding (R61, R88). -/
def encodeImage (program : List Instr) : List Byte := program.flatMap encode

/-- The size in bytes of an instruction, from its opcode (R50, R52). -/
def Instr.size : Instr → Nat
  | .loadConst _ _ => 6
  | .memRead _ _ => 3
  | .memWrite _ _ => 3
  | .negStore _ _ _ => 4

/-- The opcode of an instruction (R52). -/
def Instr.opcode : Instr → Opcode
  | .loadConst _ _ => opLoadConst
  | .memRead _ _ => opMemRead
  | .memWrite _ _ => opMemWrite
  | .negStore _ _ _ => opNegStore

/-- The `n` bytes of the number `w`, most significant byte first: how spec/opcode_table.json numbers a wire form, `W = byte0 ‖
byte1 ‖ ...` with byte0 most significant (R62, log 10). -/
def bigEndianBytes : Nat → Nat → List Byte
  | 0, _ => []
  | n + 1, w => BitVec.ofNat 8 (w / 256 ^ n) :: bigEndianBytes n w

/-- The bytes of a table word of `nbits` bits, followed by zero bytes up to the longest instruction, 6 bytes (log 10). -/
def tableBytes (nbits w : Nat) : List Byte :=
  let n := (nbits + 7) / 8
  bigEndianBytes n w ++ List.replicate (6 - n) 0#8

/-- The instruction the decoder reads from a table word (log 10). -/
def decodeTableWord (nbits w : Nat) : Option Instr :=
  match decode (tableBytes nbits w) with
  | .ok (i, _) => some i
  | .error _ => none

end Sys2Proof
end

