-- ==== Sys2Proof/Machine/State.lean ====
section
/-! DEFINITION. The state of one engine: spec/10_state.md rules R10 to R26, and the reasons a step or a host operation can stop. -/

namespace Sys2Proof.Machine

/-- The halt reasons of the engine (R15, R150, conflict C3). -/
inductive HaltReason where
  /-- No byte remains to fetch (R151). -/
  | endOfProgram
  /-- The opcode at `pc` is not 72, 113, 8 or 91 (R152). -/
  | unknownOpcode
  /-- Fewer bytes remain than the recognised opcode's size (R153). -/
  | truncatedInstruction
  /-- A data access beyond memory (R154). -/
  | memoryFault
  /-- `count` has reached INSTRUCTION_LIMIT (R155). -/
  | instructionLimitExceeded
  deriving DecidableEq, Repr

/-- The run state (R15, R100). -/
inductive Status where
  /-- Created, `run` not yet called. -/
  | notStarted
  /-- Stepping. -/
  | running
  /-- Stopped for good (R163). -/
  | halted (reason : HaltReason)
  deriving DecidableEq, Repr

/-- The seven kinds of exceptional event, a closed enumeration of names without numbers (R150, R158, decision D10, log 31). -/
inductive Kind where
  | endOfProgram
  | unknownOpcode
  | truncatedInstruction
  | memoryFault
  | instructionLimitExceeded
  | fieldOutOfRange
  | imageTooLarge
  deriving DecidableEq, Repr

/-- How the source classes a halt for reporting (R158). -/
inductive ReportClass where
  /-- "Never treated as a crash": EndOfProgram, TruncatedInstruction. -/
  | neverCrash
  /-- "A safety stop, not an error": InstructionLimitExceeded. -/
  | safetyStop
  /-- "Genuine faults": UnknownOpcode. -/
  | genuineFault
  /-- "Fatal fault": MemoryFault. -/
  | fatalFault
  deriving DecidableEq, Repr

/-- Memory as data: the bytes that differ from the reset value 0, by rising address (R17, R30). A byte not listed reads as 0,
its reset value (R25). `Memory.wf` in Ops.lean is the canonical form. -/
abbrev Memory := List Host.Cell

/-- All the state of one engine instance (10_state.md). -/
structure State where
  /-- `x[0]` .. `x[127]` (R10). -/
  regs : Vector Word 128
  /-- `mem` (R17, R30). -/
  mem : Memory
  /-- `pc`, the byte offset of the next instruction (R13; a natural number, decision D8, log 18). -/
  pc : Nat
  /-- `count`, the executed-instruction counter (R14; a natural number, decision D8, log 18). -/
  count : Nat
  /-- `status` (R15). -/
  status : Status
  /-- `fetch_limit`, the exclusive upper bound of instruction fetch (R16, decision D4, log 3). -/
  fetchLimit : Nat
  /-- Whether a `load` has been made: R182 admits at most one (log 7). -/
  loaded : Bool
  /-- The parameters the instance was created with, constant for its life (R5, R180; log 1). -/
  params : Params
  deriving DecidableEq, Repr

/-- Why a step is no move at all. Each is a stuck state of the model, and no instruction raises one. -/
inductive Fault where
  /-- Raised by `step`: the host has not called `run`, and R101 defines a step only while Running (log 8). Safe. -/
  | notStarted
  /-- Raised by `step`: the run is over, and "there is no transition out of `Halted`" (R100, R163; log 8). Safe. -/
  | halted (reason : HaltReason)
  /-- Raised by `step`: `fetch_limit` lies beyond MEMORY_SIZE, which R16 excludes, so a fetch could name a byte that does not
  exist. No state with the invariant `State.Inv` reaches it (log 12). Safe. -/
  | fetchOutsideMemory
  deriving DecidableEq, Repr

/-- Why an operation is not admitted: it is refused and nothing changes. -/
inductive Refusal where
  /-- Raised by an arm of `exec` whose instruction has no meaning yet. No arm does. Safe. -/
  | notModelled (mnemonic : String)
  /-- Raised by `create`: a parameter is outside its legal range (R5, decisions D1, D2; log 25). Safe. -/
  | illegalParameters
  /-- Raised by `load`: the run has begun, or a load was made before (R182, decision D12; log 23). Safe. -/
  | loadNotAdmitted
  /-- Raised by `run`: the status is not NotStarted (R108, decision D13; log 24). Safe. -/
  | runNotAdmitted
  /-- Raised by `run`: the run stuck before it halted. No state with the invariant `State.Inv` reaches it (R109; log 24). Safe. -/
  | runStuck
  /-- Raised by `register` and `memoryRange`: the engine is Running (R24, decision D14; log 15). Safe. -/
  | accessorNotAdmitted
  /-- Raised by `register` and `memoryRange`: an argument is out of range (R24, decision D14; log 15). Safe. -/
  | accessorArgument
  deriving DecidableEq, Repr

/-- What a host operation answers (R188): done, failed with a kind and no state change, or refused. -/
inductive OpOutcome (α : Type) where
  /-- The operation was carried out. -/
  | done (result : α)
  /-- The operation failed and changed nothing (R157). -/
  | failed (kind : Kind)
  /-- The operation is not admitted: the model gives it no meaning (R24, R108, R182). -/
  | refused (reason : Refusal)
  deriving DecidableEq, Repr

/-- A new engine with the given parameters: the reset state (R25, R180, R181). -/
def State.created (p : Params) : State :=
  { regs := Vector.replicate 128 0#32
    mem := []
    pc := 0
    count := 0
    status := .notStarted
    fetchLimit := match p.fetchMode with
      | .image => 0
      | .memory => p.memorySize
    loaded := false
    params := p }

/-- The machine right after reset, with the default parameters (R5, R25, R181; log 1). -/
def State.reset : State := State.created Params.standard

end Sys2Proof.Machine
end

