-- ==== Sys2Proof/Machine/Datapath.lean ====
section
/-! DEFINITION. The arithmetic unit: the operations of spec/41_sequencer_datapath.md rule R110. It makes no flags (R18), so the
package has no Flags.lean. -/

namespace Sys2Proof.Machine

/-- Pass: a 28-bit constant zero-extended to 32 bits (R110, R57, R120). -/
def zext32 (value : Const28) : Word := value.setWidth 32

/-- Negate: `(2^32 - v) mod 2^32` (R136). `BitVec.ofNat` is the reduction modulo 2^32. -/
def neg32 (v : Word) : Word := BitVec.ofNat 32 (2 ^ 32 - v.toNat)

/-- Split: `little_endian_bytes(v)`, lowest address first (R32). -/
def littleEndianBytes (v : Word) : List Byte :=
  [v.extractLsb 7 0, v.extractLsb 15 8, v.extractLsb 23 16, v.extractLsb 31 24]

/-- Join: `LE32(b0, b1, b2, b3)`, b0 from the lowest address (R32). -/
def le32 (b0 b1 b2 b3 : Byte) : Word := b3 ++ b2 ++ b1 ++ b0

/-- Bound: `addr + 4 <= MEMORY_SIZE` on natural numbers, no wrap (R36, R110, decision D5, log 5). -/
def inBounds (memorySize addr : Nat) : Bool := decide (addr + 4 ≤ memorySize)

end Sys2Proof.Machine
end

