-- ==== Sys2Proof/Machine/Ops.lean ====
section
/-! DEFINITION. The named operations over memory, registers and the sequencer: spec/20_memory.md, spec/10_state.md rules R12 to
R16, spec/41_sequencer_datapath.md rules R105 to R107, and entering the halted state, spec/60_exceptions.md rule R161. -/

namespace Sys2Proof.Machine

/-! ### Memory -/

/-- The canonical form: addresses strictly rise and no listed byte is 0, which is what an unlisted address reads as. -/
abbrev Memory.wf (m : Memory) : Prop :=
  m.Pairwise (fun c d => c.1 < d.1) ∧ ∀ c ∈ m, c.2 ≠ 0#8

/-- `mem[a]`: the byte at an address, 0 where nothing is listed (R30, R25). -/
def Memory.read : Memory → Nat → Byte
  | [], _ => 0#8
  | c :: m, a => if c.1 = a then c.2 else Memory.read m a

/-- The memory with the byte at an address back at its reset value. -/
def Memory.erase (m : Memory) (a : Nat) : Memory := m.filter (fun c => decide (c.1 ≠ a))

/-- The memory with a cell put in at its place by address. -/
def Memory.insertCell : Memory → Host.Cell → Memory
  | [], c => [c]
  | d :: m, c => if c.1 < d.1 then c :: d :: m else d :: Memory.insertCell m c

/-- `mem[a] <- v`. Writing 0 removes the entry, so equal memories are equal data. -/
def Memory.write (m : Memory) (a : Nat) (v : Byte) : Memory :=
  if v = 0#8 then m.erase a else (m.erase a).insertCell (a, v)

/-- The bytes `mem[a] .. mem[a+n-1]` in ascending address order. -/
def Memory.readBytes (m : Memory) (a : Nat) : Nat → List Byte
  | 0 => []
  | n + 1 => m.read a :: Memory.readBytes m (a + 1) n

/-- `mem[a] <- b0`, `mem[a+1] <- b1`, ... in order (R37, R182). -/
def Memory.writeBytes (m : Memory) (a : Nat) : List Byte → Memory
  | [] => m
  | b :: bs => Memory.writeBytes (m.write a b) (a + 1) bs

/-- The little-endian word at an address, without the bound (R37). -/
def Memory.readWord (m : Memory) (a : Nat) : Word :=
  le32 (m.read a) (m.read (a + 1)) (m.read (a + 2)) (m.read (a + 3))

/-- The memory with a word stored little-endian at an address, without the bound (R37). -/
def Memory.writeWord (m : Memory) (a : Nat) (v : Word) : Memory :=
  m.writeBytes a (littleEndianBytes v)

/-! ### Registers -/

/-- `x[i]` (R10, R12). No register is hardwired (decision D21, log 21). -/
def State.readReg (s : State) (r : RegIndex) : Word := s.regs[r.toNat]'r.isLt

/-- `x[i] <- v`: all 32 bits of the one selected cell (R12). -/
def State.writeReg (s : State) (r : RegIndex) (v : Word) : State :=
  { s with regs := s.regs.set r.toNat v r.isLt }

/-! ### Data accesses -/

/-- The primitive `MemRead(addr, 4)`: nothing where the bound fails (R36, R37). -/
def State.loadWord (s : State) (addr : Nat) : Option Word :=
  if inBounds s.params.memorySize addr then some (s.mem.readWord addr) else none

/-- The primitive `MemWrite(addr, 4, v)`: the bound comes before the write, so a failing access writes nothing (R36 to R38). -/
def State.storeWord (s : State) (addr : Nat) (v : Word) : Option State :=
  if inBounds s.params.memorySize addr then some { s with mem := s.mem.writeWord addr v } else none

/-! ### The sequencer -/

/-- `raise Halt(reason)`, the machine's whole exception entry: `status <- Halted(reason)` and nothing else (R161). There is no
return from it (R163). -/
def State.halt (s : State) (reason : HaltReason) : State := { s with status := .halted reason }

/-- The end of a successful instruction: `pc <- pc + size`, `count <- count + 1` (R105, R107). -/
def State.retire (s : State) (size : Nat) : State :=
  { s with pc := s.pc + size, count := s.count + 1 }

/-- Step 5: after a successful instruction, halt when `count` has reached INSTRUCTION_LIMIT (R106). An instruction that
halted has left Running, and its step ended there (R105). -/
def State.checkLimit (s : State) : State :=
  if s.status = .running ∧ s.params.instructionLimit ≤ s.count then s.halt .instructionLimitExceeded else s

/-- The bytes that remain at the program counter, `mem[pc .. fetch_limit - 1]`, of which the first six are enough: no
instruction is longer and the decoder looks no further (R89, R96; log 11). -/
def State.window (s : State) : List Byte := s.mem.readBytes s.pc (min 6 (s.fetchLimit - s.pc))

/-- The decoder's condition as the halt reason of the same name (R101, R170). -/
def DecodeError.haltReason : DecodeError → HaltReason
  | .endOfProgram => .endOfProgram
  | .unknownOpcode => .unknownOpcode
  | .truncatedInstruction => .truncatedInstruction

/-! ### Names of exceptional events -/

/-- The kind of a halt reason (R150, R158). -/
def HaltReason.kind : HaltReason → Kind
  | .endOfProgram => .endOfProgram
  | .unknownOpcode => .unknownOpcode
  | .truncatedInstruction => .truncatedInstruction
  | .memoryFault => .memoryFault
  | .instructionLimitExceeded => .instructionLimitExceeded

/-- The kind of a decoder's condition (R150). -/
def DecodeError.kind : DecodeError → Kind
  | .endOfProgram => .endOfProgram
  | .unknownOpcode => .unknownOpcode
  | .truncatedInstruction => .truncatedInstruction

/-- The kind of an encoder's condition (R150). -/
def EncodeError.kind : EncodeError → Kind
  | .unknownOpcode => .unknownOpcode
  | .fieldOutOfRange => .fieldOutOfRange

/-- How a halt is classed for reporting (R151 to R155, R158). -/
def HaltReason.reportClass : HaltReason → ReportClass
  | .endOfProgram => .neverCrash
  | .unknownOpcode => .genuineFault
  | .truncatedInstruction => .neverCrash
  | .memoryFault => .fatalFault
  | .instructionLimitExceeded => .safetyStop

/-! ### Placing bytes from outside -/

/-- The memory and fetch limit with some bytes placed at the program counter, as far as memory reaches, and the engine
Running: what a load and a start give an instruction that is to run next (log 9). -/
def State.placeAtPc (s : State) (bytes : List Byte) : State :=
  let fits := bytes.take (s.params.memorySize - s.pc)
  { s with
    mem := s.mem.writeBytes s.pc fits
    fetchLimit := max s.fetchLimit (s.pc + fits.length)
    status := .running }

end Sys2Proof.Machine
end

