-- ==== Sys2Proof/Machine/Operands.lean ====
section
/-! DEFINITION. The operand forms: register indirect (spec/43_memory_transfer.md) and base plus offset
(spec/44_negate_store.md). Register and immediate operands are `State.readReg` and `zext32`. -/

namespace Sys2Proof.Machine

/-- Register indirect: the full 32-bit content of the address register as a natural number (R110, R125, R126). -/
def State.indirectAddress (s : State) (addrReg : RegIndex) : Nat := (s.readReg addrReg).toNat

/-- Base plus unsigned 6-bit byte offset, a natural number up to 2^32 + 62, not reduced modulo 2^32 (R57, R110, R135;
decision D5, log 5). -/
def State.offsetAddress (s : State) (baseReg : RegIndex) (offset : Offset) : Nat :=
  (s.readReg baseReg).toNat + offset.toNat

end Sys2Proof.Machine
end

