-- ==== Sys2Proof/Machine/LoadConstant.lean ====
section
/-! DEFINITION. Load-constant: spec/42_load_constant.md. -/

namespace Sys2Proof.Machine

/-- LoadConst (R120): the register takes the constant zero-extended. It makes no data access and cannot fault. -/
def execLoadConst (destReg : RegIndex) (value : Const28) (s : State) : Host.Outcome State Fault Refusal :=
  .next ((s.writeReg destReg (zext32 value)).retire 6)

end Sys2Proof.Machine
end

