-- ==== Sys2Proof/Machine/MemoryTransfer.lean ====
section
/-! DEFINITION. Memory transfer: spec/43_memory_transfer.md. -/

namespace Sys2Proof.Machine

/-- MemRead (R125): the address is read before the register is written (R114). A failing bound halts with nothing changed but
`status` (R38, R154, R161; logs 6 and 17). -/
def execMemRead (destReg addrReg : RegIndex) (s : State) : Host.Outcome State Fault Refusal :=
  match s.loadWord (s.indirectAddress addrReg) with
  | some v => .next ((s.writeReg destReg v).retire 3)
  | none => .next (s.halt .memoryFault)

/-- MemWrite (R126). A failing bound halts with no byte written (R38, R154, R161; logs 6 and 17). -/
def execMemWrite (srcReg addrReg : RegIndex) (s : State) : Host.Outcome State Fault Refusal :=
  match s.storeWord (s.indirectAddress addrReg) (s.readReg srcReg) with
  | some t => .next (t.retire 3)
  | none => .next (s.halt .memoryFault)

end Sys2Proof.Machine
end

