-- ==== Sys2Proof/Machine/NegateStore.lean ====
section
/-! DEFINITION. Negate-and-store: spec/44_negate_store.md. -/

namespace Sys2Proof.Machine

/-- NegStore (R135): the negated word goes to memory only, no register is written. A failing bound on the unreduced sum halts
with no byte written (R38, R154, R161; logs 5, 6 and 17). -/
def execNegStore (offset : Offset) (baseReg srcReg : RegIndex) (s : State) : Host.Outcome State Fault Refusal :=
  match s.storeWord (s.offsetAddress baseReg offset) (neg32 (s.readReg srcReg)) with
  | some t => .next (t.retire 4)
  | none => .next (s.halt .memoryFault)

end Sys2Proof.Machine
end

