-- ==== Sys2Proof/Machine/Dispatch.lean ====
section
/-! DEFINITION. Execute dispatch: spec/41_sequencer_datapath.md rule R111, one arm per instruction. -/

namespace Sys2Proof.Machine

/-- `execute(i)` and the instruction's own advance of `pc` and `count` (R105, R111). -/
def exec (i : Instr) (s : State) : Host.Outcome State Fault Refusal :=
  match i with
  | .loadConst d v => Sys2Proof.Machine.execLoadConst d v s
  | .memRead d a => Sys2Proof.Machine.execMemRead d a s
  | .memWrite r a => Sys2Proof.Machine.execMemWrite r a s
  | .negStore o b r => Sys2Proof.Machine.execNegStore o b r s

end Sys2Proof.Machine
end

