-- ==== Sys2Proof/Machine/Engine.lean ====
section
/-! DEFINITION. One step of a running engine: spec/41_sequencer_datapath.md rules R101 to R107. -/

namespace Sys2Proof.Machine

/-- Step 5 after an execution that answers a next state (R106); a stop stays as it is. -/
def afterExecute (o : Host.Outcome State Fault Refusal) : Host.Outcome State Fault Refusal :=
  match o with
  | .next t => .next t.checkLimit
  | .fault f => .fault f
  | .refused r => .refused r

/-- The per-step algorithm: "exactly `decode` applied to the window at `pc`, with its three conditions mapped to the halt
reasons of the same names" (R101), then execute, advance, count, and the limit. -/
def stepRunning (s : State) : Host.Outcome State Fault Refusal :=
  if s.params.memorySize < s.fetchLimit then .fault .fetchOutsideMemory
  else
    match decode s.window with
    | .error e => .next (s.halt (DecodeError.haltReason e))
    | .ok (i, _) => afterExecute (exec i s)

/-- A step in each run state: R101 defines it only while Running, and `Halted` is final (R100; log 8). -/
def stepEngine (s : State) : Host.Outcome State Fault Refusal :=
  match s.status with
  | .notStarted => .fault .notStarted
  | .running => stepRunning s
  | .halted r => .fault (.halted r)

end Sys2Proof.Machine
end

