-- ==== Sys2Proof/Machine/Step.lean ====
section
/-! DEFINITION. The machine's step, and the placing of an instruction where the step fetches. -/

namespace Sys2Proof.Machine

/-- One step of the engine (R101). -/
def step (s : State) : Host.Outcome State Fault Refusal := stepEngine s

/-- `s` with the instruction of a table word where `step` fetches its next instruction: the bytes at `pc`, within the fetch
limit, and the engine Running. It stands for the host's `load` and `run` (log 9); the word's numbering is in log 10. -/
def State.withFetchWord (s : State) (nbits w : Nat) : State := s.placeAtPc (tableBytes nbits w)

end Sys2Proof.Machine
end

