-- ==== Sys2Proof/Machine/HostOperations.lean ====
section
/-! DEFINITION. What the host may do to an engine: spec/70_reset_and_hazards.md rules R180 to R190, spec/10_state.md rule R24 and
spec/41_sequencer_datapath.md rules R108 and R109. Each is a function from outside the step (log 8). -/

namespace Sys2Proof.Machine

/-- `create`: a new engine in the reset state, for legal parameters (R180, R188; decisions D1, D2, log 25). -/
def create (p : Params) : OpOutcome State :=
  if p.Legal then .done (State.created p) else .refused .illegalParameters

/-- The effect of a successful `load(bytes)`: copied to offset 0, and in mode `image` the fetch limit is the image's length
(R182, R26). -/
def State.withImage (s : State) (bytes : List Byte) : State :=
  { s with
    mem := s.mem.writeBytes 0 bytes
    fetchLimit := match s.params.fetchMode with
      | .image => bytes.length
      | .memory => s.fetchLimit
    loaded := true }

/-- `load(bytes)`: admitted in NotStarted and at most once; fails with ImageTooLarge and no change when the image is larger
than memory (R157, R182; decision D12, logs 7 and 23). -/
def load (bytes : List Byte) (s : State) : OpOutcome State :=
  if s.status = .notStarted ∧ s.loaded = false then
    if s.params.memorySize < bytes.length then .failed .imageTooLarge else .done (s.withImage bytes)
  else .refused .loadNotAdmitted

/-- `while status = Running: step()`, at most `fuel` times; it stops early where a step is no move (R108). -/
def drive : Nat → State → State
  | 0, s => s
  | fuel + 1, s =>
    match step s with
    | .next t => drive fuel t
    | .fault _ => s
    | .refused _ => s

/-- `status <- Running` (R108). -/
def State.start (s : State) : State := { s with status := .running }

/-- What `run` gives back: the pair `(reason, count)`, and the engine for inspection (R108, R189). -/
structure RunResult where
  reason : HaltReason
  count : Nat
  final : State
  deriving DecidableEq, Repr

/-- `run()`: admitted once, in NotStarted, with or without a load. INSTRUCTION_LIMIT + 1 steps are always enough (R108, R109;
decision D13, log 24). -/
def run (s : State) : OpOutcome RunResult :=
  if s.status = .notStarted then
    let t := drive (s.params.instructionLimit + 1) s.start
    match t.status with
    | .halted r => .done ⟨r, t.count, t⟩
    | .notStarted => .refused .runStuck
    | .running => .refused .runStuck
  else .refused .runNotAdmitted

/-- `register(i)`: a pure read, for `0 <= i <= 127`, in NotStarted or Halted (R24; decision D14, log 15). -/
def register (i : Nat) (s : State) : OpOutcome Word :=
  if s.status = .running then .refused .accessorNotAdmitted
  else if i < 128 then .done (s.readReg (BitVec.ofNat 7 i)) else .refused .accessorArgument

/-- `memory_range(lo, hi)`: a pure read of the bytes `mem[lo] .. mem[hi-1]`, for `0 <= lo <= hi <= MEMORY_SIZE`, in NotStarted
or Halted (R24; decision D14, log 15). -/
def memoryRange (lo hi : Nat) (s : State) : OpOutcome (List Byte) :=
  if s.status = .running then .refused .accessorNotAdmitted
  else if lo ≤ hi ∧ hi ≤ s.params.memorySize then .done (s.mem.readBytes lo (hi - lo)) else .refused .accessorArgument

end Sys2Proof.Machine
end

