-- ==== Sys2Proof/Safety.lean ====
section
/-! DEFINITION. The terms the claims use: the invariant of an engine, what an instruction reads, writes and leaves unchanged, and
the recognised opcodes as numbers. -/

namespace Sys2Proof.Machine

/-! ### The invariant -/

/-- What holds of every engine from its creation on (R5, R13 to R16, R25, R30; the memory's canonical form is the model's
own). -/
structure State.Inv (s : State) : Prop where
  /-- The parameters are in their legal ranges (R5). -/
  paramsLegal : s.params.Legal
  /-- Memory is in its canonical form. -/
  memCanonical : s.mem.wf
  /-- No byte exists at or beyond MEMORY_SIZE (R30). -/
  memInside : ∀ c ∈ s.mem, c.1 < s.params.memorySize
  /-- `fetch_limit <= MEMORY_SIZE` (R16). -/
  fetchInside : s.fetchLimit ≤ s.params.memorySize
  /-- In mode `memory`, `fetch_limit` is MEMORY_SIZE (R16). -/
  fetchWhole : s.params.fetchMode = .memory → s.fetchLimit = s.params.memorySize
  /-- `pc` never exceeds `fetch_limit` (R13). -/
  pcInside : s.pc ≤ s.fetchLimit
  /-- `count` never exceeds INSTRUCTION_LIMIT (R14). -/
  countInside : s.count ≤ s.params.instructionLimit
  /-- A running engine has not reached INSTRUCTION_LIMIT (R100). -/
  countRunning : s.status = .running → s.count < s.params.instructionLimit
  /-- Every counted instruction moved `pc` by at least 3 bytes (R107). -/
  pcAtLeast : 3 * s.count ≤ s.pc
  /-- Every counted instruction moved `pc` by at most 6 bytes (R107). -/
  pcAtMost : s.pc ≤ 6 * s.count
  /-- Before the run, the registers, `pc` and `count` are as at reset (R25, R26). -/
  fresh : s.status = .notStarted → s.pc = 0 ∧ s.count = 0 ∧ ∀ r, s.readReg r = 0#32
  /-- Before a load and a run, memory is as at reset and nothing is fetchable in mode `image` (R25). -/
  unloaded : s.status = .notStarted → s.loaded = false →
    s.mem = [] ∧ (s.params.fetchMode = .image → s.fetchLimit = 0)

/-! ### Frames -/

/-- The sequencer's state besides `pc` and `count` is the same. -/
def State.SameControl (s t : State) : Prop :=
  t.status = s.status ∧ t.fetchLimit = s.fetchLimit ∧ t.loaded = s.loaded ∧ t.params = s.params

/-- Every register is the same. -/
def State.SameRegs (s t : State) : Prop := ∀ r, t.readReg r = s.readReg r

/-- Every register but one is the same. -/
def State.SameRegsBut (s t : State) (d : RegIndex) : Prop := ∀ r, r ≠ d → t.readReg r = s.readReg r

/-- Every byte of memory outside the four at an address is the same. -/
def State.SameMemBut (s t : State) (addr : Nat) : Prop :=
  ∀ x, (x < addr ∨ addr + 4 ≤ x) → t.mem.read x = s.mem.read x

/-- The four bytes at an address hold a word, little-endian. -/
def State.HoldsWord (s : State) (addr : Nat) (v : Word) : Prop :=
  s.mem.read addr = v.extractLsb 7 0 ∧ s.mem.read (addr + 1) = v.extractLsb 15 8 ∧
  s.mem.read (addr + 2) = v.extractLsb 23 16 ∧ s.mem.read (addr + 3) = v.extractLsb 31 24

/-- The instruction has been counted and the program counter moved past it. -/
def State.AdvancedBy (s t : State) (size : Nat) : Prop := t.pc = s.pc + size ∧ t.count = s.count + 1

end Sys2Proof.Machine

namespace Sys2Proof

/-! ### What an instruction touches -/

/-- The registers an instruction reads (R11). -/
def Instr.readRegs : Instr → List RegIndex
  | .loadConst _ _ => []
  | .memRead _ a => [a]
  | .memWrite r a => [a, r]
  | .negStore _ b r => [b, r]

/-- The register an instruction writes (R11). -/
def Instr.writtenReg : Instr → Option RegIndex
  | .loadConst d _ => some d
  | .memRead d _ => some d
  | .memWrite _ _ => none
  | .negStore _ _ _ => none

/-- The address of an instruction's data access, where it makes one (R110, R125, R126, R135). -/
def Instr.dataAddress (s : Machine.State) : Instr → Option Nat
  | .loadConst _ _ => none
  | .memRead _ a => some (s.indirectAddress a)
  | .memWrite _ a => some (s.indirectAddress a)
  | .negStore o b _ => some (s.offsetAddress b o)

/-- The instruction's data access is beyond memory (R36, R154). -/
def Instr.FaultsIn (i : Instr) (s : Machine.State) : Prop :=
  ∃ addr, i.dataAddress s = some addr ∧ s.params.memorySize < addr + 4

/-! ### Opcodes as numbers -/

/-- The four recognised values of field A (R52). -/
abbrev RecognisedOpcode (a : Nat) : Prop := a = 72 ∨ a = 113 ∨ a = 8 ∨ a = 91

/-- `size(A)` of a recognised value (R52). -/
def sizeOfOpcode (a : Nat) : Nat := if a = 72 then 6 else if a = 91 then 4 else 3

/-! ### Reserved bits -/

/-- The bits of a wire form's last byte that belong to a field, by opcode; the others are reserved (R58). -/
def lastByteFieldMask (a : Opcode) : Byte :=
  if a = opLoadConst then 0x30#8
  else if a = opNegStore then 0x07#8
  else 0x1F#8

/-- A wire form with its reserved bits cleared: all of them stand in its last byte (R58, R98). -/
def clearReserved (w : List Byte) : List Byte :=
  match w.head?, w.getLast? with
  | some w0, some wl => w.dropLast ++ [wl &&& lastByteFieldMask (opcodeOf w0)]
  | _, _ => w

/-- Every reserved bit of a wire form is 0, its last byte read as a number: bits 7, 6 and 3 to 0 for LoadConst, 7 to 3 for
NegStore, 7 to 5 for the other two (R58). -/
def ReservedBitsZero (w : List Byte) : Prop :=
  ∃ w0 wl, w.head? = some w0 ∧ w.getLast? = some wl ∧
    if w0.toNat % 128 = 72 then wl.toNat / 64 = 0 ∧ wl.toNat % 16 = 0
    else if w0.toNat % 128 = 91 then wl.toNat / 8 = 0
    else wl.toNat / 32 = 0

/-- The word an instruction stores and its address, where it stores one (R126, R135). -/
def Instr.storedWord (s : Machine.State) : Instr → Option (Nat × Word)
  | .loadConst _ _ => none
  | .memRead _ _ => none
  | .memWrite r a => some (s.indirectAddress a, s.readReg r)
  | .negStore o b r => some (s.offsetAddress b o, Machine.neg32 (s.readReg r))

end Sys2Proof
end

