-- ==== Sys2Proof/Certificates/Slice0/Obligations.lean ====
section
/-! DEFINITION. The statements for the provers, in OBLIGATIONS.json's order. -/

open Sys2Proof Sys2Proof.Machine

/-! ### The codec -/

/-- Words written out from the layouts decode to their instructions (95_test_vectors.md V4, S2, S3; conflict C1). -/
def Obligations.SpecWordsDecode : Prop :=
  decode [0x48, 0x01, 0x00, 0x00, 0x19, 0x00] = .ok (.loadConst 1 100, 6) ∧
  decode [0x48, 0x85, 0xAF, 0x37, 0xBC, 0x10] = .ok (.loadConst 5 0x0ABCDEF1, 6) ∧
  decode [0x71, 0x03, 0x02] = .ok (.memRead 3 2, 3) ∧
  decode [0xF1, 0xA4, 0x00] = .ok (.memRead 100 64, 3) ∧
  decode [0x88, 0xA4, 0x0D] = .ok (.memWrite 100 77, 3) ∧
  decode [0x5B, 0x00, 0x0A, 0x05] = .ok (.negStore 0 10 5, 4) ∧
  decode [0xDB, 0x9F, 0xF0, 0x07] = .ok (.negStore 63 64 127, 4)

/-- R97: the round trip, whatever bytes follow, and for LoadConst under `truncate` the truncated value. -/
def Obligations.DecodeOfEncodeIsTheInstruction : Prop :=
  (∀ (i : Instr) (rest : List (BitVec 8)), decode (encode i ++ rest) = .ok (i, (encode i).length)) ∧
  ∀ b c : Int, 0 ≤ b → b < 128 → ∃ w, encodeFields .truncate ⟨72, b, c, 0⟩ = .ok w ∧
    ∃ r v, decode w = .ok (.loadConst r v, w.length) ∧ (r.toNat : Int) = b ∧ (v.toNat : Int) = c % 2 ^ 28

/-- R82, R83, R84, R97 with decisions D3, D15 and D24 (logs 13, 14): the bytes the encoder gives a call under either policy are
the wire form of one instruction, which the decoder gives back, and the call's own numbers are in every field its shape has; only
the LoadConst constant under `truncate` is its residue modulo 2^28. -/
def Obligations.AcceptedFieldsRoundTrip : Prop :=
  ∀ (p : ConstPolicy) (f : FieldCall) (w : List (BitVec 8)), encodeFields p f = .ok w →
    ∃ i : Instr, w = encode i ∧ decode w = .ok (i, w.length) ∧
      i.toCall = { f with
        c := if p = .truncate ∧ f.opcode = 72 then f.c % 268435456 else f.c
        d := if f.opcode = 91 then f.d else 0 }

/-- R98: the converse up to reserved bits, the encoder's image, and two windows with one instruction. -/
def Obligations.EncodeOfDecodeClearsReservedBits : Prop :=
  (∀ (w : List (BitVec 8)) (i : Instr) (n : Nat), decode w = .ok (i, n) →
    n ≤ w.length ∧ encode i = clearReserved (w.take n) ∧ (encode i = w.take n ↔ ReservedBitsZero (w.take n))) ∧
  (∀ w : List (BitVec 8), (∃ i, encode i = w) ↔
    ∃ w0 rest, w = w0 :: rest ∧ RecognisedOpcode (w0.toNat % 128) ∧ w.length = sizeOfOpcode (w0.toNat % 128) ∧
      ReservedBitsZero w) ∧
  ∃ w v : List (BitVec 8), w ≠ v ∧ (∃ p, decode w = .ok p) ∧ decode w = decode v

/-- R85: packing LoadConst, each byte as a number, with the rule's example. -/
def Obligations.PackingLoadConst : Prop :=
  (∀ (b : BitVec 7) (c : BitVec 28), (encode (.loadConst b c)).map BitVec.toNat =
    [b.toNat / 64 * 128 + 72, c.toNat / 2 ^ 26 * 64 + b.toNat % 64, c.toNat / 2 ^ 18 % 256, c.toNat / 2 ^ 10 % 256,
     c.toNat / 4 % 256, c.toNat % 4 * 16]) ∧
  encode (.loadConst 1 100) = [0x48, 0x01, 0x00, 0x00, 0x19, 0x00]

/-- R86: packing MemRead and MemWrite, each byte as a number, with the rule's example. -/
def Obligations.PackingMemReadAndMemWrite : Prop :=
  (∀ b c : BitVec 7,
    (encode (.memRead b c)).map BitVec.toNat =
      [b.toNat / 64 * 128 + 113, c.toNat / 32 * 64 + b.toNat % 64, c.toNat % 32] ∧
    (encode (.memWrite b c)).map BitVec.toNat =
      [b.toNat / 64 * 128 + 8, c.toNat / 32 * 64 + b.toNat % 64, c.toNat % 32]) ∧
  encode (.memRead 3 2) = [0x71, 0x03, 0x02]

/-- R87: packing NegStore, each byte as a number, with the rule's example. -/
def Obligations.PackingNegStore : Prop :=
  (∀ (b : BitVec 6) (c d : BitVec 7), (encode (.negStore b c d)).map BitVec.toNat =
    [b.toNat / 32 * 128 + 91, c.toNat / 16 * 32 + b.toNat % 32, d.toNat / 8 * 16 + c.toNat % 16, d.toNat % 8]) ∧
  encode (.negStore 0 10 5) = [0x5B, 0x00, 0x0A, 0x05]

/-- R93: unpacking LoadConst, each field as a number, with the rule's examples (the second is conflict C1's literal). -/
def Obligations.UnpackingLoadConst : Prop :=
  (∀ (w0 w1 w2 w3 w4 w5 : BitVec 8) (rest : List (BitVec 8)), w0.toNat % 128 = 72 →
    ∃ b c, decode (w0 :: w1 :: w2 :: w3 :: w4 :: w5 :: rest) = .ok (.loadConst b c, 6) ∧
      b.toNat = w0.toNat / 128 * 64 + w1.toNat % 64 ∧
      c.toNat = w1.toNat / 64 * 2 ^ 26 + w2.toNat * 2 ^ 18 + w3.toNat * 2 ^ 10 + w4.toNat * 4 + w5.toNat / 16 % 4) ∧
  decode [0x48, 0x01, 0x00, 0x00, 0x19, 0x00] = .ok (.loadConst 1 100, 6) ∧
  decode [0x48, 0x01, 0x00, 0x00, 0x00, 0x64] = .ok (.loadConst 1 2, 6)

/-- R94: unpacking MemRead and MemWrite, each field as a number, with the rule's examples. -/
def Obligations.UnpackingMemReadAndMemWrite : Prop :=
  (∀ (w0 w1 w2 : BitVec 8) (rest : List (BitVec 8)), ∃ b c : BitVec 7,
    b.toNat = w0.toNat / 128 * 64 + w1.toNat % 64 ∧ c.toNat = w1.toNat / 64 * 32 + w2.toNat % 32 ∧
    (w0.toNat % 128 = 113 → decode (w0 :: w1 :: w2 :: rest) = .ok (.memRead b c, 3)) ∧
    (w0.toNat % 128 = 8 → decode (w0 :: w1 :: w2 :: rest) = .ok (.memWrite b c, 3))) ∧
  decode [0x71, 0x03, 0x02] = .ok (.memRead 3 2, 3) ∧ decode [0x71, 0x03, 0xE2] = .ok (.memRead 3 2, 3)

/-- R95: unpacking NegStore, each field as a number, with the rule's examples. -/
def Obligations.UnpackingNegStore : Prop :=
  (∀ (w0 w1 w2 w3 : BitVec 8) (rest : List (BitVec 8)), w0.toNat % 128 = 91 →
    ∃ b c d, decode (w0 :: w1 :: w2 :: w3 :: rest) = .ok (.negStore b c d, 4) ∧
      b.toNat = w0.toNat / 128 * 32 + w1.toNat % 32 ∧ c.toNat = w1.toNat / 32 * 16 + w2.toNat % 16 ∧
      d.toNat = w2.toNat / 16 * 8 + w3.toNat % 8) ∧
  decode [0x5B, 0x00, 0x0A, 0x05] = .ok (.negStore 0 10 5, 4) ∧ decode [0x5B, 0x00, 0x0A, 0xFD] = .ok (.negStore 0 10 5, 4)

/-- R91: an unrecognised opcode is UnknownOpcode whatever follows and however long the window is, and nothing else is. -/
def Obligations.UnknownOpcodeWhateverFollows : Prop :=
  ∀ (w0 : BitVec 8) (rest : List (BitVec 8)),
    decode (w0 :: rest) = .error .unknownOpcode ↔ ¬ RecognisedOpcode (w0.toNat % 128)

/-- R92: a recognised opcode with fewer bytes than its size is TruncatedInstruction, and nothing else is. -/
def Obligations.TruncatedWhenBytesAreMissing : Prop :=
  ∀ (w0 : BitVec 8) (rest : List (BitVec 8)),
    decode (w0 :: rest) = .error .truncatedInstruction ↔
      RecognisedOpcode (w0.toNat % 128) ∧ (w0 :: rest).length < sizeOfOpcode (w0.toNat % 128)

/-- R58: the encoder writes every reserved bit 0; the decoder ignores them; two running engines whose windows differ only in the
reserved bits of the instruction at `pc` run one and the same instruction. -/
def Obligations.ReservedBitsWrittenZeroAndIgnored : Prop :=
  (∀ i : Instr, ReservedBitsZero (encode i)) ∧
  (∀ (w : List (BitVec 8)) (i : Instr) (n : Nat), decode w = .ok (i, n) →
    decode (clearReserved (w.take n) ++ w.drop n) = .ok (i, n)) ∧
  ∀ (s t : Sys2Proof.Machine.State) (i : Instr) (n : Nat), s.Inv → t.Inv → s.status = .running → t.status = .running →
    decode s.window = .ok (i, n) → t.window = clearReserved (s.window.take n) ++ s.window.drop n →
    step s = afterExecute (exec i s) ∧ step t = afterExecute (exec i t)

/-- R82, R83, R84 with decisions D15 and D24 (log 14): when the encoder gives UnknownOpcode, when FieldOutOfRange under each
policy, and bytes otherwise. -/
def Obligations.EncoderConditions : Prop :=
  ∀ (p : ConstPolicy) (f : FieldCall),
    (¬ (f.opcode = 72 ∨ f.opcode = 113 ∨ f.opcode = 8 ∨ f.opcode = 91) → encodeFields p f = .error .unknownOpcode) ∧
    (f.opcode = 72 → if (0 ≤ f.b ∧ f.b < 128) ∧ (p = .reject → 0 ≤ f.c ∧ f.c < 268435456)
      then ∃ w, encodeFields p f = .ok w ∧ w.length = 6 else encodeFields p f = .error .fieldOutOfRange) ∧
    (f.opcode = 113 ∨ f.opcode = 8 → if (0 ≤ f.b ∧ f.b < 128) ∧ (0 ≤ f.c ∧ f.c < 128)
      then ∃ w, encodeFields p f = .ok w ∧ w.length = 3 else encodeFields p f = .error .fieldOutOfRange) ∧
    (f.opcode = 91 → if (0 ≤ f.b ∧ f.b < 64) ∧ (0 ≤ f.c ∧ f.c < 128) ∧ (0 ≤ f.d ∧ f.d < 128)
      then ∃ w, encodeFields p f = .ok w ∧ w.length = 4 else encodeFields p f = .error .fieldOutOfRange)

/-- R82 with decisions D15 and D24 (log 14): integers from -2^31 up to 2^32 - 1 give on the 32-bit ports what they give as
integers. -/
def Obligations.PortsAgreeWithIntegers : Prop :=
  ∀ (p : ConstPolicy) (a b c d : Int), -2 ^ 31 ≤ a → a < 2 ^ 32 → -2 ^ 31 ≤ b → b < 2 ^ 32 → -2 ^ 31 ≤ c → c < 2 ^ 32 →
    -2 ^ 31 ≤ d → d < 2 ^ 32 →
    encodePorts p (BitVec.ofInt 32 a) (BitVec.ofInt 32 b) (BitVec.ofInt 32 c) (BitVec.ofInt 32 d) = encodeFields p ⟨a, b, c, d⟩

/-! ### The arithmetic unit -/

/-- R136: the formula, the fixed points, every other value, the sum, the complement form (marked derived by the spec), the signed
reading, and the source's listed values. -/
def Obligations.NegationLaws : Prop :=
  (∀ v : BitVec 32, (neg32 v).toNat = (2 ^ 32 - v.toNat) % 2 ^ 32 ∧
    (v ≠ 0 → v ≠ 0x80000000#32 → (neg32 v).toNat = 2 ^ 32 - v.toNat ∧ neg32 v ≠ v) ∧
    (v.toNat + (neg32 v).toNat) % 2 ^ 32 = 0 ∧
    neg32 v = ~~~v + 1 ∧
    (v ≠ 0x80000000#32 → (neg32 v).toInt = - v.toInt)) ∧
  neg32 0 = 0 ∧ neg32 0x80000000#32 = 0x80000000#32 ∧ neg32 0x7FFFFFFF#32 = 0x80000001#32 ∧
  neg32 0xFFFFFFFF#32 = 0x00000001#32

/-- R137: the double negation of a word is the word, and on the machine a NegStore, a MemRead of the stored word, a NegStore of
that register and a MemRead of the result restore the source's value. -/
def Obligations.DoubleNegationRestores : Prop :=
  (∀ v : BitVec 32, neg32 (neg32 v) = v) ∧
  ∀ (s : Sys2Proof.Machine.State) (o1 o2 : BitVec 6) (base1 src read1 mid base2 read2 dest : BitVec 7),
    s.offsetAddress base1 o1 + 4 ≤ s.params.memorySize →
    ∃ t1, exec (.negStore o1 base1 src) s = .next t1 ∧
      (t1.indirectAddress read1 = s.offsetAddress base1 o1 →
        ∃ t2, exec (.memRead mid read1) t1 = .next t2 ∧
          (t2.offsetAddress base2 o2 + 4 ≤ t2.params.memorySize →
            ∃ t3, exec (.negStore o2 base2 mid) t2 = .next t3 ∧
              (t3.indirectAddress read2 = t2.offsetAddress base2 o2 →
                ∃ t4, exec (.memRead dest read2) t3 = .next t4 ∧ t4.readReg dest = s.readReg src)))

/-- R32: the little-endian value of four bytes and the four bytes of a value, and the two primitives the three memory
instructions access memory by (R37) use that order at ascending addresses, with the rule's example. -/
def Obligations.LittleEndianWords : Prop :=
  (∀ b0 b1 b2 b3 : BitVec 8, (le32 b0 b1 b2 b3).toNat =
    b0.toNat + 2 ^ 8 * b1.toNat + 2 ^ 16 * b2.toNat + 2 ^ 24 * b3.toNat) ∧
  (∀ v : BitVec 32, (littleEndianBytes v).map BitVec.toNat =
    [v.toNat % 256, v.toNat / 2 ^ 8 % 256, v.toNat / 2 ^ 16 % 256, v.toNat / 2 ^ 24]) ∧
  (∀ (s : Sys2Proof.Machine.State) (a : Nat) (w : BitVec 32), s.loadWord a = some w →
    w.toNat = (s.mem.read a).toNat + 2 ^ 8 * (s.mem.read (a + 1)).toNat +
      2 ^ 16 * (s.mem.read (a + 2)).toNat + 2 ^ 24 * (s.mem.read (a + 3)).toNat) ∧
  (∀ (s t : Sys2Proof.Machine.State) (a : Nat) (v : BitVec 32), s.storeWord a v = some t →
    t.mem.readBytes a 4 = littleEndianBytes v) ∧
  ∀ s t : Sys2Proof.Machine.State, s.storeWord 0x600 0xFFFFFF9C#32 = some t →
    t.mem.readBytes 0x600 4 = [0x9C#8, 0xFF#8, 0xFF#8, 0xFF#8]

/-! ### Registers and memory -/

/-- R12: a write replaces the one selected cell wholly and changes no other cell and nothing else; a read returns the cell's
value; an unwritten register reads 0. -/
def Obligations.RegisterSelection : Prop :=
  (∀ (s : Sys2Proof.Machine.State) (r : BitVec 7) (v : BitVec 32),
    (s.writeReg r v).readReg r = v ∧ s.SameRegsBut (s.writeReg r v) r ∧
    ∃ regs, s.writeReg r v = { s with regs := regs }) ∧
  ∀ (p : Params) (r : BitVec 7), (State.created p).readReg r = 0

/-- The model's canonical form (the memory as data, NOTES.md): memories that read alike are equal data, and writing what an
address already reads as changes nothing. -/
def Obligations.CanonicalMemoryIsUnique : Prop :=
  (∀ m k : Memory, m.wf → k.wf → (∀ a, m.read a = k.read a) → m = k) ∧
  ∀ (m : Memory) (a : Nat), m.wf → m.write a (m.read a) = m

/-- R30, R47: a word store read back at each overlapping address, as the bytes it overlaps say; repeating a store changes nothing
further; and R47's example. -/
def Obligations.OverlappingWords : Prop :=
  (∀ (m : Memory) (a : Nat) (v : BitVec 32),
    (m.writeWord a v).readWord (a + 1) =
      le32 (v.extractLsb 15 8) (v.extractLsb 23 16) (v.extractLsb 31 24) (m.read (a + 4)) ∧
    (1 ≤ a → (m.writeWord a v).readWord (a - 1) =
      le32 (m.read (a - 1)) (v.extractLsb 7 0) (v.extractLsb 15 8) (v.extractLsb 23 16)) ∧
    (m.wf → (m.writeWord a v).writeWord a v = m.writeWord a v)) ∧
  (Memory.writeWord [] 0x100 0x01234567#32).readWord 0x101 = 0x00012345#32 ∧
  (Memory.writeWord [] 0x100 0x01234567#32).readWord 0xFF = 0x23456700#32

/-! ### The instructions -/

/-- R120: LoadConst completes in every state; its encoding, reserved bits, truncation, example and frame. -/
def Obligations.LoadConstCompletes : Prop :=
  (∀ (d : BitVec 7) (v : BitVec 28) (s : Sys2Proof.Machine.State), ∃ t, exec (.loadConst d v) s = .next t ∧
    (t.readReg d).toNat = v.toNat ∧ s.SameRegsBut t d ∧ (∀ x, t.mem.read x = s.mem.read x) ∧
    s.AdvancedBy t 6 ∧ s.SameControl t) ∧
  (∀ (d : BitVec 7) (v : BitVec 28), ∃ w0 w1 w2 w3 w4 w5, encode (.loadConst d v) = [w0, w1, w2, w3, w4, w5] ∧
    w0.toNat % 128 = 72 ∧
    (∀ x : BitVec 8, decode [w0, w1, w2, w3, w4, w5 ||| (x &&& 0xCF#8)] = .ok (.loadConst d v, 6)) ∧
    ∀ k, 1 ≤ k → k < 6 → decode ([w0, w1, w2, w3, w4, w5].take k) = .error .truncatedInstruction) ∧
  decode [0x48, 0x01, 0x00, 0x00, 0x19, 0x00] = .ok (.loadConst 1 0x64, 6)

/-- R125 where the bound holds: MemRead completes, reading the address from the old register. -/
def Obligations.MemReadCompletes : Prop :=
  ∀ (d a : BitVec 7) (s : Sys2Proof.Machine.State), (s.readReg a).toNat + 4 ≤ s.params.memorySize →
    ∃ t, exec (.memRead d a) s = .next t ∧
      (t.readReg d).toNat = (s.mem.read (s.readReg a).toNat).toNat + 2 ^ 8 * (s.mem.read ((s.readReg a).toNat + 1)).toNat +
        2 ^ 16 * (s.mem.read ((s.readReg a).toNat + 2)).toNat + 2 ^ 24 * (s.mem.read ((s.readReg a).toNat + 3)).toNat ∧
      s.SameRegsBut t d ∧ (∀ x, t.mem.read x = s.mem.read x) ∧ s.AdvancedBy t 3 ∧ s.SameControl t

/-- R126 where the bound holds: MemWrite completes; the four bytes at the register's address take the word. -/
def Obligations.MemWriteCompletes : Prop :=
  ∀ (r a : BitVec 7) (s : Sys2Proof.Machine.State), s.indirectAddress a + 4 ≤ s.params.memorySize →
    ∃ t, exec (.memWrite r a) s = .next t ∧ t.HoldsWord (s.indirectAddress a) (s.readReg r) ∧
      s.SameMemBut t (s.indirectAddress a) ∧ s.SameRegs t ∧ s.AdvancedBy t 3 ∧ s.SameControl t

/-- R135 where the bound on the unreduced sum holds (decision D5, log 5): NegStore completes; the four bytes at base plus offset
take the negated word and no register is written. -/
def Obligations.NegStoreCompletes : Prop :=
  ∀ (o : BitVec 6) (b r : BitVec 7) (s : Sys2Proof.Machine.State), s.offsetAddress b o + 4 ≤ s.params.memorySize →
    ∃ t, exec (.negStore o b r) s = .next t ∧ t.HoldsWord (s.offsetAddress b o) (neg32 (s.readReg r)) ∧
      s.SameMemBut t (s.offsetAddress b o) ∧ s.SameRegs t ∧ s.AdvancedBy t 4 ∧ s.SameControl t

/-- R36, R38, R154, R161 with decisions D5, D6, D7 (logs 5, 6, 17): exactly the accesses whose address plus 4, never reduced
modulo 2^32, exceeds MEMORY_SIZE halt with MemoryFault, and then nothing else changes; LoadConst never does. -/
def Obligations.MemoryFaultIsTheBoundAndChangesNothing : Prop :=
  ∀ s : Sys2Proof.Machine.State,
    (∀ d a, s.params.memorySize < (s.readReg a).toNat + 4 →
      exec (.memRead d a) s = .next { s with status := .halted .memoryFault }) ∧
    (∀ r a, s.params.memorySize < (s.readReg a).toNat + 4 →
      exec (.memWrite r a) s = .next { s with status := .halted .memoryFault }) ∧
    (∀ o b r, s.params.memorySize < (s.readReg b).toNat + o.toNat + 4 →
      exec (.negStore o b r) s = .next { s with status := .halted .memoryFault }) ∧
    ∀ i t, exec i s = .next t → s.status ≠ .halted .memoryFault → t.status = .halted .memoryFault → i.FaultsIn s

/-- R11: what an instruction leaves depends on no register but those it reads; a register other than the one it writes is
unchanged; the one it writes takes a value that its old content has no part in, or, on a MemoryFault, no register is written; the
sequencer and memory come out alike; at most two registers are read, and a load touches none. -/
def Obligations.OnlyTheNamedRegistersAreReadAndWritten : Prop :=
  (∀ i : Instr, i.readRegs.length ≤ 2) ∧
  (∀ (bytes : List (BitVec 8)) (s t : Sys2Proof.Machine.State), load bytes s = .done t → s.SameRegs t) ∧
  ∀ (i : Instr) (s t : Sys2Proof.Machine.State), (∃ regs, t = { s with regs := regs }) →
    (∀ r ∈ i.readRegs, t.readReg r = s.readReg r) →
    ∃ s' t', exec i s = .next s' ∧ exec i t = .next t' ∧
      (∃ regs, t' = { s' with regs := regs }) ∧
      (∀ r, i.writtenReg ≠ some r → s'.readReg r = s.readReg r ∧ t'.readReg r = t.readReg r) ∧
      (¬ i.FaultsIn s → ∀ r, i.writtenReg = some r → s'.readReg r = t'.readReg r) ∧
      (i.FaultsIn s → s.SameRegs s' ∧ t.SameRegs t')

/-- R127: a MemWrite followed directly by a MemRead of the same address register gives the stored value, if the store did not
overwrite the MemRead; the second step happens when the first did not reach INSTRUCTION_LIMIT. -/
def Obligations.WriteThenReadGivesTheValue : Prop :=
  ∀ (s : Sys2Proof.Machine.State) (src addr dest : BitVec 7) (n k : Nat), s.Inv → s.status = .running →
    s.count + 1 < s.params.instructionLimit →
    decode s.window = .ok (.memWrite src addr, n) →
    decode (s.mem.readBytes (s.pc + 3) (s.fetchLimit - (s.pc + 3))) = .ok (.memRead dest addr, k) →
    s.indirectAddress addr + 4 ≤ s.params.memorySize →
    (s.indirectAddress addr + 4 ≤ s.pc + 3 ∨ s.pc + 6 ≤ s.indirectAddress addr) →
    ∃ t u, step s = .next t ∧ step t = .next u ∧ u.readReg dest = s.readReg src

/-! ### The step -/

/-- R101, R105, R106: a step of a running engine whose bytes at `pc` decode to an instruction is `exec` of it, then the test of
INSTRUCTION_LIMIT. -/
def Obligations.StepRunsTheDecodedInstruction : Prop :=
  ∀ (s : Sys2Proof.Machine.State) (i : Instr) (n : Nat), s.Inv → s.status = .running → decode s.window = .ok (i, n) →
    ∃ t, exec i s = .next t ∧
      step s = .next (if t.status = .running ∧ s.params.instructionLimit ≤ t.count
        then { t with status := .halted .instructionLimitExceeded } else t)

/-- R89, R96, R101 (log 11): the six bytes the model fetches decide as all the bytes that remain would, and they are the bytes at
`pc` and up. -/
def Obligations.SixBytesDecideTheDecode : Prop :=
  ∀ s : Sys2Proof.Machine.State, decode s.window = decode (s.mem.readBytes s.pc (s.fetchLimit - s.pc)) ∧
    ∀ k, k < 6 → k < s.fetchLimit - s.pc → s.window[k]? = some (s.mem.read (s.pc + k))

/-- R102: no byte remains. -/
def Obligations.StepAtTheEndHalts : Prop :=
  ∀ s : Sys2Proof.Machine.State, s.Inv → s.status = .running → s.fetchLimit - s.pc < 1 →
    step s = .next { s with status := .halted .endOfProgram } ∧ s.pc = s.fetchLimit ∧
      (s.params.fetchMode = .memory → s.pc = s.params.memorySize)

/-- R103: the opcode at `pc` is not recognised; a zero byte is such a one. -/
def Obligations.StepAtAnUnknownOpcodeHalts : Prop :=
  ∀ s : Sys2Proof.Machine.State, s.Inv → s.status = .running → 1 ≤ s.fetchLimit - s.pc →
    (¬ RecognisedOpcode ((s.mem.read s.pc).toNat % 128) ∨ s.mem.read s.pc = 0) →
    step s = .next { s with status := .halted .unknownOpcode }

/-- R104: the opcode at `pc` is recognised and its bytes do not all remain; and whenever `pc` is advanced it stays within
`fetch_limit`. -/
def Obligations.StepAtATruncatedInstructionHalts : Prop :=
  ∀ s : Sys2Proof.Machine.State, s.Inv → s.status = .running →
    (1 ≤ s.fetchLimit - s.pc → RecognisedOpcode ((s.mem.read s.pc).toNat % 128) →
      s.fetchLimit - s.pc < sizeOfOpcode ((s.mem.read s.pc).toNat % 128) →
      step s = .next { s with status := .halted .truncatedInstruction }) ∧
    ∀ t, step s = .next t → t.pc ≠ s.pc →
      t.pc = s.pc + sizeOfOpcode ((s.mem.read s.pc).toNat % 128) ∧ t.pc ≤ s.fetchLimit

/-- R107: the program counter moves by the size of the instruction executed and by nothing else; where it does not move, the
step halted without executing. -/
def Obligations.ProgramCounterOnlyAdvances : Prop :=
  ∀ s t : Sys2Proof.Machine.State, step s = .next t →
    (t.pc = s.pc ∧ t.count = s.count ∧ t.status ≠ .running) ∨
    (t.count = s.count + 1 ∧
      ((∃ d v n, decode s.window = .ok (.loadConst d v, n) ∧ t.pc = s.pc + 6) ∨
       (∃ d a n, decode s.window = .ok (.memRead d a, n) ∧ t.pc = s.pc + 3) ∨
       (∃ r a n, decode s.window = .ok (.memWrite r a, n) ∧ t.pc = s.pc + 3) ∨
       ∃ o b r n, decode s.window = .ok (.negStore o b r, n) ∧ t.pc = s.pc + 4))

/-- R100: every transition of the run state, with exactly its condition; a running engine always has one. -/
def Obligations.TransitionTable : Prop :=
  (∀ s : Sys2Proof.Machine.State, s.status = .notStarted → s.start.status = .running ∧ ∀ t, step s ≠ .next t) ∧
  (∀ (s : Sys2Proof.Machine.State) (r : HaltReason), s.status = .halted r → ∀ t, step s ≠ .next t) ∧
  ∀ s : Sys2Proof.Machine.State, s.Inv → s.status = .running → ∃ t, step s = .next t ∧
    (t.status = .halted .endOfProgram ↔ s.fetchLimit - s.pc < 1) ∧
    (t.status = .halted .unknownOpcode ↔
      1 ≤ s.fetchLimit - s.pc ∧ ¬ RecognisedOpcode ((s.mem.read s.pc).toNat % 128)) ∧
    (t.status = .halted .truncatedInstruction ↔
      1 ≤ s.fetchLimit - s.pc ∧ RecognisedOpcode ((s.mem.read s.pc).toNat % 128) ∧
        s.fetchLimit - s.pc < sizeOfOpcode ((s.mem.read s.pc).toNat % 128)) ∧
    (t.status = .halted .memoryFault ↔ ∃ i n, decode s.window = .ok (i, n) ∧ i.FaultsIn s) ∧
    (t.status = .halted .instructionLimitExceeded ↔
      ∃ i n, decode s.window = .ok (i, n) ∧ ¬ i.FaultsIn s ∧ s.count + 1 = s.params.instructionLimit) ∧
    (t.status = .running ↔
      ∃ i n, decode s.window = .ok (i, n) ∧ ¬ i.FaultsIn s ∧ s.count + 1 < s.params.instructionLimit)

/-- R161, R162 with decisions D6 and D7 (logs 6, 17): a halt changes `status` only, from the state before the instruction at `pc`
or, for InstructionLimitExceeded, from the state after the last instruction. -/
def Obligations.HaltsArePrecise : Prop :=
  ∀ (s t : Sys2Proof.Machine.State) (r : HaltReason), step s = .next t → t.status = .halted r →
    (r ≠ .instructionLimitExceeded ∧ t = { s with status := .halted r }) ∨
    (r = .instructionLimitExceeded ∧ ∃ i n u, decode s.window = .ok (i, n) ∧ exec i s = .next u ∧ u.status = .running ∧
      t = { u with status := .halted r })

/-- R151 to R155, "Recorded" (decision D7, log 17): what the halted state itself shows of its reason. -/
def Obligations.HaltReasonsAreRecorded : Prop :=
  ∀ (s t : Sys2Proof.Machine.State), s.Inv → step s = .next t →
    (t.status = .halted .endOfProgram → t.pc = t.fetchLimit) ∧
    (t.status = .halted .unknownOpcode → ¬ RecognisedOpcode ((t.mem.read t.pc).toNat % 128)) ∧
    (t.status = .halted .truncatedInstruction → RecognisedOpcode ((t.mem.read t.pc).toNat % 128) ∧
      t.fetchLimit < t.pc + sizeOfOpcode ((t.mem.read t.pc).toNat % 128)) ∧
    (t.status = .halted .memoryFault → ∃ i n, decode t.window = .ok (i, n) ∧ i.FaultsIn t) ∧
    (t.status = .halted .instructionLimitExceeded → t.count = t.params.instructionLimit ∧
      ∃ i n, decode s.window = .ok (i, n) ∧ ¬ i.FaultsIn s ∧ t.pc = s.pc + n)

/-- R16, R22, R180: no step changes the fetch limit, the parameters or whether an image was loaded. -/
def Obligations.StepsKeepTheInstance : Prop :=
  ∀ s t : Sys2Proof.Machine.State, step s = .next t →
    t.fetchLimit = s.fetchLimit ∧ t.params = s.params ∧ t.loaded = s.loaded

/-- R42, R45: a word stored over bytes ahead of the `pc` and below `fetch_limit` is what the next fetch there sees. -/
def Obligations.StoresIntoCodeAreFetched : Prop :=
  ∀ (s t : Sys2Proof.Machine.State) (i : Instr) (n addr : Nat) (v : BitVec 32) (k : Nat), step s = .next t →
    decode s.window = .ok (i, n) → ¬ i.FaultsIn s → i.storedWord s = some (addr, v) →
    k < 4 → t.pc ≤ addr + k → addr + k < t.pc + 6 → addr + k < t.fetchLimit →
    t.window[addr + k - t.pc]? = (littleEndianBytes v)[k]?

/-! ### The invariant and the run -/

/-- Every engine is created with the invariant, the one at reset among them (R25, R181; log 1). -/
def Obligations.CreatedEnginesHaveTheInvariant : Prop :=
  (∀ p : Params, p.Legal → (State.created p).Inv) ∧ State.reset.Inv

/-- Every step keeps the invariant: memory canonical and inside MEMORY_SIZE, `pc` within `fetch_limit` (R13), `count` within
INSTRUCTION_LIMIT (R14), and the rest of `State.Inv`. -/
def Obligations.StepKeepsTheInvariant : Prop :=
  ∀ s t : Sys2Proof.Machine.State, s.Inv → step s = .next t → t.Inv

/-- Loading and starting keep the invariant (R182, R108; decision D12, log 23). -/
def Obligations.HostOperationsKeepTheInvariant : Prop :=
  (∀ (p : Params) (s : Sys2Proof.Machine.State), create p = .done s → s.Inv) ∧
  (∀ (bytes : List (BitVec 8)) (s t : Sys2Proof.Machine.State), s.Inv → load bytes s = .done t → t.Inv) ∧
  (∀ s : Sys2Proof.Machine.State, s.Inv → s.status = .notStarted → s.start.Inv) ∧
  ∀ (s : Sys2Proof.Machine.State) (r : RunResult), s.Inv → run s = .done r → r.final.Inv

/-- R108, R109 (decision D13, log 24): a run from NotStarted ends Halted, and gives back the reason and the count. -/
def Obligations.EveryRunEnds : Prop :=
  ∀ s : Sys2Proof.Machine.State, s.Inv → s.status = .notStarted →
    ∃ r, run s = .done r ∧ r.final.status = .halted r.reason ∧ r.final.count = r.count ∧
      r.count ≤ s.params.instructionLimit ∧ ∀ fuel, s.params.instructionLimit < fuel → drive fuel s.start = r.final

/-- R106, R155, R160 (the spec marks R106's count derived): a run stops with InstructionLimitExceeded exactly when it has
executed INSTRUCTION_LIMIT instructions, also when the image is exhausted at the same moment. -/
def Obligations.LimitReasonIsTheFullCount : Prop :=
  ∀ (s : Sys2Proof.Machine.State) (r : RunResult), s.Inv → run s = .done r →
    (r.reason = .instructionLimitExceeded ↔ r.count = s.params.instructionLimit)

/-! ### Reset and the host -/

/-- R25, R181 with decisions D4 and D23 (logs 3, 16) and the defaults of R5 (logs 1, 2): the state right after creation. -/
def Obligations.ResetState : Prop :=
  (∀ p : Params, (∀ r, (State.created p).readReg r = 0) ∧ (∀ a, (State.created p).mem.read a = 0) ∧
    (State.created p).pc = 0 ∧ (State.created p).count = 0 ∧ (State.created p).status = .notStarted ∧
    (State.created p).params = p ∧
    (State.created p).fetchLimit = if p.fetchMode = .image then 0 else p.memorySize) ∧
  State.reset = State.created ⟨1048576, 10000, .image⟩

/-- R26, R182 (decision D12, logs 7, 23): a load of a new engine copies the image to address 0 and sets the fetch limit, or fails
with ImageTooLarge; a second load is refused. -/
def Obligations.LoadCopiesTheImage : Prop :=
  ∀ (p : Params) (bytes : List (BitVec 8)),
    (p.memorySize < bytes.length → load bytes (State.created p) = .failed .imageTooLarge) ∧
    (bytes.length ≤ p.memorySize → ∃ s, load bytes (State.created p) = .done s ∧
      (∀ k b, bytes[k]? = some b → s.mem.read k = b) ∧ (∀ a, bytes.length ≤ a → s.mem.read a = 0) ∧
      (∀ r, s.readReg r = 0) ∧ s.pc = 0 ∧ s.count = 0 ∧ s.status = .notStarted ∧
      s.fetchLimit = (if p.fetchMode = .image then bytes.length else p.memorySize) ∧
      ∀ more, load more s = .refused .loadNotAdmitted)

/-- R40, R61, R183: the first step of a run of a loaded image executes the instruction whose bytes stand at address 0. -/
def Obligations.FirstInstructionIsAtAddressZero : Prop :=
  ∀ (p : Params) (i : Instr) (rest : List Instr) (s : Sys2Proof.Machine.State),
    load (encodeImage (i :: rest)) (State.created p) = .done s →
    step s.start = afterExecute (exec i s.start)

/-- R163: a halted engine takes no step, and admits no load and no run, but its registers and memory can be read; what
a run gives back is its halt reason and its count. That the step answers the fault `halted` is the model's own choice (log 8,
DESIGN CHOICE), as are the names of the refusals (logs 23, 24); R163 says that there is no move. -/
def Obligations.HaltedIsFinal : Prop :=
  (∀ (s : Sys2Proof.Machine.State) (r : HaltReason), s.status = .halted r →
    step s = .fault (.halted r) ∧ (∀ bytes, load bytes s = .refused .loadNotAdmitted) ∧ run s = .refused .runNotAdmitted ∧
    (∀ i, i < 128 → register i s = .done (s.readReg (BitVec.ofNat 7 i))) ∧
    ∀ lo hi, lo ≤ hi → hi ≤ s.params.memorySize → ∃ bytes, memoryRange lo hi s = .done bytes) ∧
  ∀ (s : Sys2Proof.Machine.State) (r : RunResult), run s = .done r →
    r.final.status = .halted r.reason ∧ r.count = r.final.count

/-- R24 and R188 with decision D14 (log 15): the accessors' values, order, range and refusals; while the engine is Running both
are refused whatever their arguments. -/
def Obligations.AccessorsReadTheState : Prop :=
  ∀ s : Sys2Proof.Machine.State,
    (s.status = .running → (∀ i, register i s = .refused .accessorNotAdmitted) ∧
      ∀ lo hi, memoryRange lo hi s = .refused .accessorNotAdmitted) ∧
    (s.status ≠ .running →
      (∀ i : BitVec 7, register i.toNat s = .done (s.readReg i)) ∧
      (∀ i, 128 ≤ i → register i s = .refused .accessorArgument) ∧
      ∀ lo hi, if lo ≤ hi ∧ hi ≤ s.params.memorySize
        then ∃ bytes, memoryRange lo hi s = .done bytes ∧ bytes.length = hi - lo ∧
          ∀ k, k < hi - lo → bytes[k]? = some (s.mem.read (lo + k))
        else memoryRange lo hi s = .refused .accessorArgument)
end

