-- ==== Sys2Proof/Laws/Codec.lean ====
section
/-! SUPPORT. What the codec's parts give: sizes, the opcode of an encoded byte, and well-formedness of every instruction. -/

namespace Sys2Proof

/-- The number a concatenation stands for: the spec's `a ‖ b` with `a` more significant (R7). -/
theorem toNat_append_eq {m n : Nat} (x : BitVec m) (y : BitVec n) : (x ++ y).toNat = x.toNat * 2 ^ n + y.toNat := by
  rw [BitVec.toNat_append, ← Nat.shiftLeft_add_eq_or_of_lt y.isLt, Nat.shiftLeft_eq]

/-- The number a bit field stands for: the spec's `v[hi:lo]` (R7). -/
theorem toNat_extractLsb_eq {n : Nat} (hi lo : Nat) (v : BitVec n) :
    (v.extractLsb hi lo).toNat = v.toNat / 2 ^ lo % 2 ^ (hi - lo + 1) := by
  rw [BitVec.extractLsb_toNat, Nat.shiftRight_eq_div_pow]

/-- Bit 7 of byte0 plays no part in the opcode (R51). -/
theorem opcodeOf_append (x : BitVec 1) (a : Opcode) : opcodeOf (x ++ a) = a := by
  apply BitVec.eq_of_toNat_eq
  have ha := a.isLt
  simp only [opcodeOf, toNat_extractLsb_eq, toNat_append_eq]
  omega

/-- The opcode as a number (R51). -/
theorem opcodeOf_toNat (w0 : Byte) : (opcodeOf w0).toNat = w0.toNat % 128 := by
  simp [opcodeOf]

/-- Every instruction is well formed: the fields' types hold R81's invariant. -/
theorem Instr.wellFormed_all (i : Instr) : i.wellFormed = true := by
  have b6 : ∀ v : BitVec 6, fitsWidth 6 (v.toNat : Int) = true := fun v => by
    have := v.isLt; simp [fitsWidth]; omega
  have b7 : ∀ v : BitVec 7, fitsWidth 7 (v.toNat : Int) = true := fun v => by
    have := v.isLt; simp [fitsWidth]; omega
  have b28 : ∀ v : BitVec 28, fitsWidth 28 (v.toNat : Int) = true := fun v => by
    have := v.isLt; simp [fitsWidth]; omega
  cases i <;>
    simp [Instr.wellFormed, FieldCall.wellFormed, FieldCall.check, FieldCall.isOp, Instr.toCall, opLoadConst, opMemRead,
      opMemWrite, opNegStore, ConstPolicy.admits, b6, b7, b28]

/-- A wire form is as long as its instruction's size (R50). -/
theorem encode_length (i : Instr) : (encode i).length = i.size := by cases i <;> rfl

/-- The size of an instruction is that of its opcode (R52). -/
theorem opcodeSize_opcode (i : Instr) : opcodeSize i.opcode = some i.size := by
  cases i <;> simp [opcodeSize, Instr.opcode, Instr.size, opLoadConst, opMemRead, opMemWrite, opNegStore]

/-- No instruction is longer than 6 bytes (R50). -/
theorem Instr.size_le_six (i : Instr) : i.size ≤ 6 := by cases i <;> simp [Instr.size]

/-- No instruction is shorter than 3 bytes (R50). -/
theorem Instr.three_le_size (i : Instr) : 3 ≤ i.size := by cases i <;> simp [Instr.size]

/-- A decoded instruction comes with its own size, and its bytes were all present (R89, R92). -/
theorem decode_ok_size {w : List Byte} {i : Instr} {n : Nat} (h : decode w = .ok (i, n)) : n = i.size ∧ n ≤ w.length := by
  match w, h with
  | w0 :: rest, h =>
    simp only [decode] at h
    split at h
    · match rest, h with
      | w1 :: w2 :: w3 :: w4 :: w5 :: _, h => cases h; simp [Instr.size]
    · split at h
      · match rest, h with
        | w1 :: w2 :: _, h => cases h; simp [Instr.size]
      · split at h
        · match rest, h with
          | w1 :: w2 :: _, h => cases h; simp [Instr.size]
        · split at h
          · match rest, h with
            | w1 :: w2 :: w3 :: _, h => cases h; simp [Instr.size]
          · cases h

end Sys2Proof
end

