-- ==== Sys2Proof/Laws/Memory.lean ====
section
/-! SUPPORT. The laws of memory: what a write changes, what it leaves, and that every operation keeps the canonical form. They
hold of any list of cells but where the canonical form is the claim. -/

namespace Sys2Proof.Machine

/-! ### One byte -/

@[simp] theorem Memory.read_nil (a : Nat) : Memory.read [] a = 0#8 := rfl

theorem Memory.read_erase (m : Memory) (a x : Nat) : (m.erase a).read x = if x = a then 0#8 else m.read x := by
  induction m with
  | nil => simp [Memory.erase]
  | cons c m ih =>
    simp only [Memory.erase, List.filter_cons] at ih ⊢
    by_cases hc : c.1 = a
    · simp only [hc, ne_eq, not_true_eq_false, decide_false, Bool.false_eq_true, if_false, ih, Memory.read]
      split
      · rfl
      · rw [if_neg (fun e => ‹¬x = a› e.symm)]
    · simp only [hc, ne_eq, not_false_eq_true, decide_true, if_true, Memory.read, ih]
      split
      · rw [if_neg (by omega)]
      · rfl

theorem Memory.read_insertCell (m : Memory) (c : Host.Cell) (x : Nat) (h : ∀ d ∈ m, d.1 ≠ c.1) :
    (Memory.insertCell m c).read x = if x = c.1 then c.2 else m.read x := by
  induction m with
  | nil => simp [Memory.insertCell, Memory.read, eq_comm]
  | cons d m ih =>
    have hd := h d (by simp)
    have ih := ih (fun e he => h e (by simp [he]))
    unfold Memory.insertCell
    split
    · simp [Memory.read, eq_comm]
    · simp only [Memory.read, ih]
      split <;> split <;> simp_all

theorem Memory.erase_ne (m : Memory) (a : Nat) : ∀ d ∈ m.erase a, d.1 ≠ a := by
  intro d hd
  simpa using (List.mem_filter.mp hd).2

/-- The byte at every address after a write (R30). -/
theorem Memory.read_write (m : Memory) (a x : Nat) (v : Byte) : (m.write a v).read x = if x = a then v else m.read x := by
  unfold Memory.write
  split
  · simp [Memory.read_erase, *]
  · rw [Memory.read_insertCell _ _ _ (m.erase_ne a), Memory.read_erase]
    simp only
    split <;> rfl

@[simp] theorem Memory.read_write_self (m : Memory) (a : Nat) (v : Byte) : (m.write a v).read a = v := by
  simp [Memory.read_write]

theorem Memory.read_write_ne (m : Memory) {a x : Nat} (v : Byte) (h : x ≠ a) : (m.write a v).read x = m.read x := by
  simp [Memory.read_write, h]

/-! ### The canonical form -/

theorem Memory.wf_nil : Memory.wf [] := by simp [Memory.wf]

theorem Memory.wf_erase {m : Memory} (h : m.wf) (a : Nat) : (m.erase a).wf :=
  ⟨h.1.filter _, fun c hc => h.2 c (List.mem_filter.mp hc).1⟩

theorem Memory.mem_insertCell {m : Memory} {c d : Host.Cell} : d ∈ Memory.insertCell m c ↔ d = c ∨ d ∈ m := by
  induction m with
  | nil => simp [Memory.insertCell]
  | cons e m ih =>
    unfold Memory.insertCell
    split
    · simp
    · simp only [List.mem_cons, ih]; tauto

theorem Memory.pairwise_insertCell {m : Memory} {c : Host.Cell} (hm : m.Pairwise (fun c d => c.1 < d.1))
    (h : ∀ d ∈ m, d.1 ≠ c.1) : (Memory.insertCell m c).Pairwise (fun c d => c.1 < d.1) := by
  induction m with
  | nil => simp [Memory.insertCell]
  | cons e m ih =>
    have he := List.pairwise_cons.mp hm
    unfold Memory.insertCell
    split
    · rename_i hlt
      refine List.pairwise_cons.mpr ⟨fun d hd => ?_, hm⟩
      rcases List.mem_cons.mp hd with rfl | hd
      · exact hlt
      · exact Nat.lt_trans hlt (he.1 d hd)
    · rename_i hnlt
      refine List.pairwise_cons.mpr ⟨fun d hd => ?_, ih he.2 (fun d hd => h d (by simp [hd]))⟩
      rcases Memory.mem_insertCell.mp hd with rfl | hd
      · have := h e (by simp); omega
      · exact he.1 d hd

/-- A write keeps the canonical form. -/
theorem Memory.wf_write {m : Memory} (h : m.wf) (a : Nat) (v : Byte) : (m.write a v).wf := by
  unfold Memory.write
  split
  · exact Memory.wf_erase h a
  · rename_i hv
    have he := Memory.wf_erase h a
    refine ⟨Memory.pairwise_insertCell he.1 (m.erase_ne a), fun c hc => ?_⟩
    rcases Memory.mem_insertCell.mp hc with rfl | hc
    · exact hv
    · exact he.2 c hc

/-- Writing bytes in a row keeps the canonical form. -/
theorem Memory.wf_writeBytes (bs : List Byte) {m : Memory} (h : m.wf) (a : Nat) : (m.writeBytes a bs).wf := by
  induction bs generalizing m a with
  | nil => exact h
  | cons b bs ih => exact ih (Memory.wf_write h a b) (a + 1)

/-- Storing a word keeps the canonical form. -/
theorem Memory.wf_writeWord {m : Memory} (h : m.wf) (a : Nat) (v : Word) : (m.writeWord a v).wf :=
  Memory.wf_writeBytes _ h a

/-- The machine's memory right after reset has the canonical form, whatever the parameters. -/
theorem State.created_mem_wf (p : Params) : (State.created p).mem.wf := Memory.wf_nil

/-- A write lists no address but its own and those listed before. -/
theorem Memory.mem_write {m : Memory} {a : Nat} {v : Byte} {c : Host.Cell} (h : c ∈ m.write a v) : c.1 = a ∨ c ∈ m := by
  unfold Memory.write at h
  split at h
  · exact .inr (List.mem_filter.mp h).1
  · rcases Memory.mem_insertCell.mp h with rfl | h
    · exact .inl rfl
    · exact .inr (List.mem_filter.mp h).1

/-- Writing bytes in a row lists no address but theirs and those listed before. -/
theorem Memory.mem_writeBytes {bs : List Byte} {m : Memory} {a : Nat} {c : Host.Cell} (h : c ∈ m.writeBytes a bs) :
    (a ≤ c.1 ∧ c.1 < a + bs.length) ∨ c ∈ m := by
  induction bs generalizing m a with
  | nil => exact .inr h
  | cons b bs ih =>
    have := ih (m := m.write a b) (a := a + 1) h
    rcases this with ⟨h1, h2⟩ | h
    · exact .inl (by simp only [List.length_cons]; omega)
    · rcases Memory.mem_write h with h | h
      · exact .inl (by simp only [List.length_cons]; omega)
      · exact .inr h

/-! ### Bytes in a row -/

@[simp] theorem Memory.readBytes_length (m : Memory) (a n : Nat) : (m.readBytes a n).length = n := by
  induction n generalizing a with
  | zero => rfl
  | succ n ih => simp [Memory.readBytes, ih]

theorem Memory.readBytes_getElem (m : Memory) (a n k : Nat) (h : k < (m.readBytes a n).length) :
    (m.readBytes a n)[k] = m.read (a + k) := by
  induction n generalizing a k with
  | zero => simp [Memory.readBytes] at h
  | succ n ih =>
    cases k with
    | zero => simp [Memory.readBytes]
    | succ k =>
      have := ih (a + 1) k (by simpa using h)
      simp only [Memory.readBytes, List.getElem_cons_succ, this]
      congr 1; omega

/-- The byte at every address after bytes are written in a row (R37, R182). -/
theorem Memory.read_writeBytes (bs : List Byte) (m : Memory) (a x : Nat) :
    (m.writeBytes a bs).read x = if h : a ≤ x ∧ x < a + bs.length then bs[x - a]'(by omega) else m.read x := by
  induction bs generalizing m a with
  | nil => simp [Memory.writeBytes]
  | cons b bs ih =>
    rw [Memory.writeBytes, ih, Memory.read_write]
    by_cases hx : x = a
    · subst hx; simp
    · by_cases h : a + 1 ≤ x ∧ x < a + 1 + bs.length
      · have h' : a ≤ x ∧ x < a + (b :: bs).length := by simp only [List.length_cons]; omega
        rw [dif_pos h, dif_pos h']
        simp only [show x - a = (x - (a + 1)) + 1 by omega, List.getElem_cons_succ]
      · have h' : ¬(a ≤ x ∧ x < a + (b :: bs).length) := by simp only [List.length_cons]; omega
        rw [dif_neg h, dif_neg h', if_neg hx]

/-- Reading bytes depends only on the bytes read. -/
theorem Memory.readBytes_congr {m k : Memory} {a n : Nat} (h : ∀ x, a ≤ x → x < a + n → m.read x = k.read x) :
    m.readBytes a n = k.readBytes a n := by
  induction n generalizing a with
  | zero => rfl
  | succ n ih =>
    simp only [Memory.readBytes]
    rw [h a (by omega) (by omega), ih (fun x h1 h2 => h x (by omega) (by omega))]

/-! ### One word -/

@[simp] theorem littleEndianBytes_length (v : Word) : (littleEndianBytes v).length = 4 := rfl

/-- Every byte after a word is stored: the four bytes of the word, and the rest as before (R37). -/
theorem Memory.read_writeWord (m : Memory) (a x : Nat) (v : Word) : (m.writeWord a v).read x =
    if x = a then v.extractLsb 7 0 else if x = a + 1 then v.extractLsb 15 8
    else if x = a + 2 then v.extractLsb 23 16 else if x = a + 3 then v.extractLsb 31 24 else m.read x := by
  simp only [Memory.writeWord, littleEndianBytes, Memory.writeBytes, Memory.read_write]
  repeat' split
  all_goals first | rfl | omega

theorem Memory.read_writeWord_outside (m : Memory) (a x : Nat) (v : Word) (h : x < a ∨ a + 4 ≤ x) :
    (m.writeWord a v).read x = m.read x := by
  rw [Memory.read_writeWord]
  rw [if_neg, if_neg, if_neg, if_neg] <;> omega

end Sys2Proof.Machine
end

