-- ==== Sys2Proof/Laws/Datapath.lean ====
section
/-! SUPPORT. The arithmetic unit as ordinary bit-vector and number arithmetic. -/

namespace Sys2Proof.Machine

/-- The negation is the two's complement (R136). -/
theorem neg32_eq_neg (v : Word) : neg32 v = -v := by
  apply BitVec.eq_of_toNat_eq
  simp [neg32, BitVec.toNat_neg]

/-- The negation as the spec's formula on numbers (R136). -/
theorem neg32_toNat (v : Word) : (neg32 v).toNat = (2 ^ 32 - v.toNat) % 2 ^ 32 := by
  simp [neg32]

/-- The number a joined word stands for (R32). -/
theorem le32_toNat (b0 b1 b2 b3 : Byte) :
    (le32 b0 b1 b2 b3).toNat = b0.toNat + 256 * b1.toNat + 65536 * b2.toNat + 16777216 * b3.toNat := by
  simp only [le32, toNat_append_eq]
  omega

/-- Splitting a word and joining the bytes gives the word back (R32). -/
theorem le32_split (v : Word) :
    le32 (v.extractLsb 7 0) (v.extractLsb 15 8) (v.extractLsb 23 16) (v.extractLsb 31 24) = v := by
  apply BitVec.eq_of_toNat_eq
  have := v.isLt
  simp only [le32_toNat, toNat_extractLsb_eq]
  omega

/-- A stored word reads back (R127). -/
theorem Memory.readWord_writeWord (m : Memory) (a : Nat) (v : Word) : (m.writeWord a v).readWord a = v := by
  simp only [Memory.readWord, Memory.read_writeWord]
  simp [le32_split]

end Sys2Proof.Machine
end

