-- ==== Sys2Proof/Laws/State.lean ====
section
/-! SUPPORT. What each update of State leaves in each field, and the register file's read and write. -/

namespace Sys2Proof.Machine

variable (s : State) (r q : RegIndex) (v : Word) (n : Nat) (h : HaltReason)

/-! ### Fields after a register write -/

@[simp] theorem State.writeReg_mem : (s.writeReg r v).mem = s.mem := rfl
@[simp] theorem State.writeReg_pc : (s.writeReg r v).pc = s.pc := rfl
@[simp] theorem State.writeReg_count : (s.writeReg r v).count = s.count := rfl
@[simp] theorem State.writeReg_status : (s.writeReg r v).status = s.status := rfl
@[simp] theorem State.writeReg_fetchLimit : (s.writeReg r v).fetchLimit = s.fetchLimit := rfl
@[simp] theorem State.writeReg_loaded : (s.writeReg r v).loaded = s.loaded := rfl
@[simp] theorem State.writeReg_params : (s.writeReg r v).params = s.params := rfl

/-! ### Fields after the end of an instruction -/

@[simp] theorem State.retire_regs : (s.retire n).regs = s.regs := rfl
@[simp] theorem State.retire_mem : (s.retire n).mem = s.mem := rfl
@[simp] theorem State.retire_pc : (s.retire n).pc = s.pc + n := rfl
@[simp] theorem State.retire_count : (s.retire n).count = s.count + 1 := rfl
@[simp] theorem State.retire_status : (s.retire n).status = s.status := rfl
@[simp] theorem State.retire_fetchLimit : (s.retire n).fetchLimit = s.fetchLimit := rfl
@[simp] theorem State.retire_loaded : (s.retire n).loaded = s.loaded := rfl
@[simp] theorem State.retire_params : (s.retire n).params = s.params := rfl
@[simp] theorem State.retire_readReg : (s.retire n).readReg r = s.readReg r := rfl

/-! ### Fields after a halt -/

@[simp] theorem State.halt_regs : (s.halt h).regs = s.regs := rfl
@[simp] theorem State.halt_mem : (s.halt h).mem = s.mem := rfl
@[simp] theorem State.halt_pc : (s.halt h).pc = s.pc := rfl
@[simp] theorem State.halt_count : (s.halt h).count = s.count := rfl
@[simp] theorem State.halt_status : (s.halt h).status = .halted h := rfl
@[simp] theorem State.halt_fetchLimit : (s.halt h).fetchLimit = s.fetchLimit := rfl
@[simp] theorem State.halt_loaded : (s.halt h).loaded = s.loaded := rfl
@[simp] theorem State.halt_params : (s.halt h).params = s.params := rfl
@[simp] theorem State.halt_readReg : (s.halt h).readReg r = s.readReg r := rfl

/-! ### Fields after the start of a run -/

@[simp] theorem State.start_regs : s.start.regs = s.regs := rfl
@[simp] theorem State.start_mem : s.start.mem = s.mem := rfl
@[simp] theorem State.start_pc : s.start.pc = s.pc := rfl
@[simp] theorem State.start_count : s.start.count = s.count := rfl
@[simp] theorem State.start_status : s.start.status = .running := rfl
@[simp] theorem State.start_fetchLimit : s.start.fetchLimit = s.fetchLimit := rfl
@[simp] theorem State.start_loaded : s.start.loaded = s.loaded := rfl
@[simp] theorem State.start_params : s.start.params = s.params := rfl

/-! ### Fields after step 5: only the status may change -/

@[simp] theorem State.checkLimit_regs : s.checkLimit.regs = s.regs := by unfold State.checkLimit; split <;> rfl
@[simp] theorem State.checkLimit_mem : s.checkLimit.mem = s.mem := by unfold State.checkLimit; split <;> rfl
@[simp] theorem State.checkLimit_pc : s.checkLimit.pc = s.pc := by unfold State.checkLimit; split <;> rfl
@[simp] theorem State.checkLimit_count : s.checkLimit.count = s.count := by unfold State.checkLimit; split <;> rfl
@[simp] theorem State.checkLimit_fetchLimit : s.checkLimit.fetchLimit = s.fetchLimit := by
  unfold State.checkLimit; split <;> rfl
@[simp] theorem State.checkLimit_loaded : s.checkLimit.loaded = s.loaded := by unfold State.checkLimit; split <;> rfl
@[simp] theorem State.checkLimit_params : s.checkLimit.params = s.params := by unfold State.checkLimit; split <;> rfl
@[simp] theorem State.checkLimit_readReg : s.checkLimit.readReg r = s.readReg r := by
  unfold State.checkLimit; split <;> rfl

/-- The status after step 5. -/
theorem State.checkLimit_status : s.checkLimit.status =
    if s.status = .running ∧ s.params.instructionLimit ≤ s.count then .halted .instructionLimitExceeded else s.status := by
  unfold State.checkLimit; split <;> rfl

/-! ### The register file (R12) -/

@[simp] theorem State.readReg_writeReg_self : (s.writeReg r v).readReg r = v := by
  simp [State.readReg, State.writeReg]

theorem State.readReg_writeReg_ne (hq : q ≠ r) : (s.writeReg r v).readReg q = s.readReg q := by
  have : r.toNat ≠ q.toNat := fun e => hq (BitVec.eq_of_toNat_eq e.symm)
  simp [State.readReg, State.writeReg, Vector.getElem_set_ne, this]

/-- A register after a write, in one equation. -/
theorem State.readReg_writeReg : (s.writeReg r v).readReg q = if q = r then v else s.readReg q := by
  by_cases hq : q = r
  · subst hq; simp
  · simp [hq, State.readReg_writeReg_ne]

/-- Two register files that read alike are the same. -/
theorem State.regs_eq_of_readReg {s t : State} (hr : ∀ r, s.readReg r = t.readReg r) : s.regs = t.regs := by
  apply Vector.ext
  intro i hi
  have := hr (BitVec.ofNat 7 i)
  simpa [State.readReg, BitVec.toNat_ofNat, Nat.mod_eq_of_lt hi] using this

@[simp] theorem State.created_readReg (p : Params) : (State.created p).readReg r = 0#32 := by
  simp [State.readReg, State.created]

end Sys2Proof.Machine
end

