-- ==== Sys2Proof/Laws/Exec.lean ====
section
/-! SUPPORT. Once for each shared operation and for the step: everything it can do. -/

namespace Sys2Proof.Machine

/-! ### Data accesses -/

theorem inBounds_iff {n a : Nat} : inBounds n a = true ↔ a + 4 ≤ n := by simp [inBounds]

/-- A load answers the word, exactly within the bound (R36, R37). -/
theorem State.loadWord_eq (s : State) (a : Nat) : s.loadWord a =
    if a + 4 ≤ s.params.memorySize then some (s.mem.readWord a) else none := by
  simp [State.loadWord, inBounds]

/-- A store changes memory alone, exactly within the bound (R36, R37, R38). -/
theorem State.storeWord_eq (s : State) (a : Nat) (v : Word) : s.storeWord a v =
    if a + 4 ≤ s.params.memorySize then some { s with mem := s.mem.writeWord a v } else none := by
  simp [State.storeWord, inBounds]

/-! ### The instructions -/

/-- The state an instruction gives when its data access is within the bound, or when it makes none. -/
def effect (i : Instr) (s : State) : State :=
  match i with
  | .loadConst d v => (s.writeReg d (zext32 v)).retire 6
  | .memRead d a => (s.writeReg d (s.mem.readWord (s.indirectAddress a))).retire 3
  | .memWrite r a => ({ s with mem := s.mem.writeWord (s.indirectAddress a) (s.readReg r) } : State).retire 3
  | .negStore o b r =>
    ({ s with mem := s.mem.writeWord (s.offsetAddress b o) (neg32 (s.readReg r)) } : State).retire 4

/-- An instruction halts with MemoryFault and no effect, or has its effect: nothing else (R38, R111, R161). -/
theorem exec_cases (i : Instr) (s : State) :
    (i.FaultsIn s ∧ exec i s = .next (s.halt .memoryFault)) ∨ (¬ i.FaultsIn s ∧ exec i s = .next (effect i s)) := by
  cases i with
  | loadConst d v => exact .inr ⟨by simp [Instr.FaultsIn, Instr.dataAddress], rfl⟩
  | memRead d a =>
    by_cases h : s.indirectAddress a + 4 ≤ s.params.memorySize
    · exact .inr ⟨by simpa [Instr.FaultsIn, Instr.dataAddress] using h, by simp [exec, execMemRead, effect, State.loadWord_eq, h]⟩
    · exact .inl ⟨by simpa [Instr.FaultsIn, Instr.dataAddress] using h, by simp [exec, execMemRead, State.loadWord_eq, h]⟩
  | memWrite r a =>
    by_cases h : s.indirectAddress a + 4 ≤ s.params.memorySize
    · exact .inr ⟨by simpa [Instr.FaultsIn, Instr.dataAddress] using h, by simp [exec, execMemWrite, effect, State.storeWord_eq, h]⟩
    · exact .inl ⟨by simpa [Instr.FaultsIn, Instr.dataAddress] using h, by simp [exec, execMemWrite, State.storeWord_eq, h]⟩
  | negStore o b r =>
    by_cases h : s.offsetAddress b o + 4 ≤ s.params.memorySize
    · exact .inr ⟨by simpa [Instr.FaultsIn, Instr.dataAddress] using h, by simp [exec, execNegStore, effect, State.storeWord_eq, h]⟩
    · exact .inl ⟨by simpa [Instr.FaultsIn, Instr.dataAddress] using h, by simp [exec, execNegStore, State.storeWord_eq, h]⟩

section
variable (i : Instr) (s : State)

@[simp] theorem effect_pc : (effect i s).pc = s.pc + i.size := by cases i <;> rfl
@[simp] theorem effect_count : (effect i s).count = s.count + 1 := by cases i <;> rfl
@[simp] theorem effect_status : (effect i s).status = s.status := by cases i <;> rfl
@[simp] theorem effect_fetchLimit : (effect i s).fetchLimit = s.fetchLimit := by cases i <;> rfl
@[simp] theorem effect_loaded : (effect i s).loaded = s.loaded := by cases i <;> rfl
@[simp] theorem effect_params : (effect i s).params = s.params := by cases i <;> rfl

end

/-! ### The step -/

@[simp] theorem step_notStarted {s : State} (h : s.status = .notStarted) : step s = .fault .notStarted := by
  simp [step, stepEngine, h]

@[simp] theorem step_halted {s : State} {r : HaltReason} (h : s.status = .halted r) : step s = .fault (.halted r) := by
  simp [step, stepEngine, h]

theorem step_running {s : State} (h : s.status = .running) : step s = stepRunning s := by
  simp [step, stepEngine, h]

/-- A step of a running engine that cannot decode (R102 to R104). -/
theorem step_decode_error {s : State} {e : DecodeError} (h : s.status = .running)
    (hf : s.fetchLimit ≤ s.params.memorySize) (hd : decode s.window = .error e) :
    step s = .next (s.halt (DecodeError.haltReason e)) := by
  simp [step_running h, stepRunning, Nat.not_lt.mpr hf, hd]

/-- A step of a running engine that decodes (R105, R106). -/
theorem step_decode_ok {s : State} {i : Instr} {n : Nat} (h : s.status = .running)
    (hf : s.fetchLimit ≤ s.params.memorySize) (hd : decode s.window = .ok (i, n)) :
    step s = afterExecute (exec i s) := by
  simp [step_running h, stepRunning, Nat.not_lt.mpr hf, hd]

/-- Everything a step that moves can do: the engine was running, with its fetch inside memory, and either it could not decode
and halted, or its instruction faulted and it halted, or its instruction had its effect and step 5 was tested. -/
theorem step_cases {s t : State} (h : step s = .next t) :
    s.status = .running ∧ s.fetchLimit ≤ s.params.memorySize ∧
    ((∃ e, decode s.window = .error e ∧ t = s.halt (DecodeError.haltReason e)) ∨
     (∃ i n, decode s.window = .ok (i, n) ∧ i.FaultsIn s ∧ t = s.halt .memoryFault) ∨
     (∃ i n, decode s.window = .ok (i, n) ∧ ¬ i.FaultsIn s ∧ t = (effect i s).checkLimit)) := by
  cases hs : s.status with
  | notStarted => simp [hs] at h
  | halted r => simp [hs] at h
  | running =>
    by_cases hf : s.params.memorySize < s.fetchLimit
    · simp [step_running hs, stepRunning, hf] at h
    · have hf := Nat.not_lt.mp hf
      refine ⟨rfl, hf, ?_⟩
      cases hd : decode s.window with
      | error e =>
        rw [step_decode_error hs hf hd] at h
        cases h
        exact .inl ⟨e, rfl, rfl⟩
      | ok p =>
        obtain ⟨i, n⟩ := p
        rw [step_decode_ok hs hf hd] at h
        rcases exec_cases i s with ⟨hx, he⟩ | ⟨hx, he⟩
        · rw [he] at h
          cases h
          exact .inr (.inl ⟨i, n, rfl, hx, by simp [State.checkLimit]⟩)
        · rw [he] at h
          cases h
          exact .inr (.inr ⟨i, n, rfl, hx, rfl⟩)

end Sys2Proof.Machine
end

