-- ==== Sys2Proof/Laws/PerInstr.lean ====
section
/-! SUPPORT. The per-instruction family WireForm: an instruction is well formed, its wire form has its size, and the wire form's
first byte carries its opcode whatever the fields (R50, R51, R52, R81). -/

namespace Sys2Proof.Laws.WireForm

/-- What is said of each instruction as syntax. -/
def Statement (i : Instr) : Prop :=
  i.wellFormed = true ∧ (encode i).length = i.size ∧ ∃ w0 rest, encode i = w0 :: rest ∧ opcodeOf w0 = i.opcode

theorem loadConst (destReg : RegIndex) (value : Const28) : Statement (.loadConst destReg value) :=
  ⟨Instr.wellFormed_all _, encode_length _, _, _, rfl, opcodeOf_append _ _⟩

theorem memRead (destReg addrReg : RegIndex) : Statement (.memRead destReg addrReg) :=
  ⟨Instr.wellFormed_all _, encode_length _, _, _, rfl, opcodeOf_append _ _⟩

theorem memWrite (srcReg addrReg : RegIndex) : Statement (.memWrite srcReg addrReg) :=
  ⟨Instr.wellFormed_all _, encode_length _, _, _, rfl, opcodeOf_append _ _⟩

theorem negStore (offset : Offset) (baseReg srcReg : RegIndex) : Statement (.negStore offset baseReg srcReg) :=
  ⟨Instr.wellFormed_all _, encode_length _, _, _, rfl, opcodeOf_append _ _⟩

end Sys2Proof.Laws.WireForm
end

