-- ==== Sys2Proof/Tests/Slice0.lean ====
section
/-! SUPPORT. Tests with expected values from spec/95_test_vectors.md, and for every statement with hypotheses a witness that meets
them. -/

namespace Sys2Proof.Tests

open Sys2Proof.Machine

/-! ### Helpers -/

/-- A running engine with an image at address 0 and some registers set. -/
def engine (p : Params) (image : List Byte) (regs : List (RegIndex × Word)) : State :=
  regs.foldl (fun s c => s.writeReg c.1 c.2) ((State.created p).withImage image).start

/-- Whether an outcome is a next state with a property. -/
def leads (o : Host.Outcome State Fault Refusal) (p : State → Bool) : Bool :=
  match o with
  | .next t => p t
  | .fault _ => false
  | .refused _ => false

/-- A small memory of 64 bytes, fetched up to the image's end. -/
def small : Params := ⟨64, 10, .image⟩

theorem inv_writeReg {s : State} (h : s.Inv) (hs : s.status = .running) (r : RegIndex) (v : Word) : (s.writeReg r v).Inv :=
  { paramsLegal := h.paramsLegal, memCanonical := h.memCanonical, memInside := h.memInside, fetchInside := h.fetchInside,
    fetchWhole := h.fetchWhole, pcInside := h.pcInside, countInside := h.countInside, countRunning := h.countRunning,
    pcAtLeast := h.pcAtLeast, pcAtMost := h.pcAtMost, fresh := by simp [hs], unloaded := by simp [hs] }

/-- The helper's engines have the invariant. -/
theorem inv_engine (p : Params) (image : List Byte) (regs : List (RegIndex × Word)) (hp : p.Legal)
    (hl : image.length ≤ p.memorySize) : (engine p image regs).Inv ∧ (engine p image regs).status = .running := by
  have base : (((State.created p).withImage image).start).Inv ∧ (((State.created p).withImage image).start).status = .running := by
    refine ⟨⟨hp, Memory.wf_writeBytes _ Memory.wf_nil _, fun c hc => ?_, ?_, ?_, Nat.zero_le _, Nat.zero_le _, fun _ => hp.2,
      Nat.zero_le _, Nat.zero_le _, by simp, by simp⟩, rfl⟩
    · rcases Memory.mem_writeBytes hc with ⟨_, h⟩ | h
      · exact Nat.lt_of_lt_of_le (by simpa using h) hl
      · cases h
    · rcases p with ⟨a, b, m⟩; cases m
      · exact hl
      · exact Nat.le_refl _
    · intro hm; rcases p with ⟨a, b, m⟩; cases m
      · cases hm
      · rfl
  have go : ∀ (regs : List (RegIndex × Word)) (s : State), s.Inv ∧ s.status = .running →
      (regs.foldl (fun s c => s.writeReg c.1 c.2) s).Inv ∧ (regs.foldl (fun s c => s.writeReg c.1 c.2) s).status = .running := by
    intro regs
    induction regs with
    | nil => exact fun s h => h
    | cons c regs ih => exact fun s h => ih _ ⟨inv_writeReg h.1 h.2 _ _, h.2⟩
  exact go regs _ base

/-! ### WellFormed smoke: an ill-formed call for each check (V1 to V3, S. "Failing calls") -/

theorem test_check_unknown_opcode : (FieldCall.mk 73 0 0 0).check .reject = .error .unknownOpcode := by decide
theorem test_check_negative_opcode : (FieldCall.mk (-1) 0 0 0).check .truncate = .error .unknownOpcode := by decide
theorem test_check_opcode_before_fields : (FieldCall.mk 200 999 0 0).check .reject = .error .unknownOpcode := by decide
theorem test_check_loadConst_b : (FieldCall.mk 72 128 0 0).check .truncate = .error .fieldOutOfRange := by decide
theorem test_check_loadConst_b_negative : (FieldCall.mk 72 (-1) 0 0).check .reject = .error .fieldOutOfRange := by decide
theorem test_check_loadConst_c : (FieldCall.mk 72 1 268435456 0).check .reject = .error .fieldOutOfRange := by decide
theorem test_check_memRead_b : (FieldCall.mk 113 128 0 0).check .reject = .error .fieldOutOfRange := by decide
theorem test_check_memRead_c : (FieldCall.mk 113 0 128 0).check .reject = .error .fieldOutOfRange := by decide
theorem test_check_memWrite_b : (FieldCall.mk 8 (-1) 0 0).check .reject = .error .fieldOutOfRange := by decide
theorem test_check_memWrite_c : (FieldCall.mk 8 0 128 0).check .reject = .error .fieldOutOfRange := by decide
theorem test_check_negStore_b : (FieldCall.mk 91 64 0 0).check .reject = .error .fieldOutOfRange := by decide
theorem test_check_negStore_c : (FieldCall.mk 91 0 128 0).check .reject = .error .fieldOutOfRange := by decide
theorem test_check_negStore_d : (FieldCall.mk 91 0 0 128).check .reject = .error .fieldOutOfRange := by decide
/-- Field d is ignored unless the opcode is 91 (R82). -/
theorem test_check_d_ignored : (FieldCall.mk 113 127 127 999).check .reject = .ok () := by decide

/-! ### The encoder (V1 to V3) -/

theorem test_encode_truncates_negative :
    encodeFields .truncate ⟨72, 1, -100, 0⟩ = .ok [0x48, 0xC1, 0xFF, 0xFF, 0xE7, 0x00] := by decide
theorem test_encode_loadConst_ones :
    encodeFields .reject ⟨72, 127, 268435455, 0⟩ = .ok [0xC8, 0xFF, 0xFF, 0xFF, 0xFF, 0x30] := by decide
theorem test_encode_memRead : encodeFields .reject ⟨113, 100, 64, 0⟩ = .ok [0xF1, 0xA4, 0x00] := by decide
theorem test_encode_memWrite : encodeFields .reject ⟨8, 100, 77, 0⟩ = .ok [0x88, 0xA4, 0x0D] := by decide
theorem test_encode_negStore : encodeFields .reject ⟨91, 63, 64, 127⟩ = .ok [0xDB, 0x9F, 0xF0, 0x07] := by decide

/-! ### The decoder: words written out from the layouts (V1 to V4) -/

theorem test_decode_loadConst_bit0 : decode [0x48, 0x00, 0x00, 0x00, 0x00, 0x10] = .ok (.loadConst 0 1, 6) := by decide
theorem test_decode_loadConst_bit27 : decode [0xC8, 0x80, 0x00, 0x00, 0x00, 0x00] = .ok (.loadConst 64 0x8000000, 6) := by decide
theorem test_decode_loadConst_reserved : decode [0xC8, 0xFF, 0xFF, 0xFF, 0xFF, 0xFF] = .ok (.loadConst 127 0xFFFFFFF, 6) := by
  decide
theorem test_decode_memRead : decode [0x71, 0x80, 0x1F] = .ok (.memRead 0 95, 3) := by decide
theorem test_decode_memRead_reserved : decode [0xF1, 0xFF, 0xFF] = .ok (.memRead 127 127, 3) := by decide
theorem test_decode_memWrite : decode [0x88, 0x7F, 0x1F] = .ok (.memWrite 127 63, 3) := by decide
theorem test_decode_memWrite_extra_byte : decode [0x08, 0x01, 0x02, 0x99] = .ok (.memWrite 1 2, 3) := by decide
theorem test_decode_negStore_d3 : decode [0x5B, 0x20, 0x10, 0x00] = .ok (.negStore 0 16 8, 4) := by decide
theorem test_decode_negStore_reserved : decode [0xDB, 0xFF, 0xFF, 0xFF] = .ok (.negStore 63 127 127, 4) := by decide
theorem test_decode_empty : decode [] = .error .endOfProgram := by decide
theorem test_decode_opcode_zero_bit7 : decode [0x80] = .error .unknownOpcode := by decide
theorem test_decode_unknown_before_length : decode [0x49, 0x01] = .error .unknownOpcode := by decide
theorem test_decode_truncated : decode [0xC8] = .error .truncatedInstruction := by decide

/-! ### Table words (R62, log 10) -/

theorem test_tableWord_loadConst : decodeTableWord 48 0x488537000010 = some (.loadConst 5 0x8DC0001) := by decide
theorem test_tableWord_memRead : decodeTableWord 24 0x710302 = some (.memRead 3 2) := by decide
theorem test_tableWord_memWrite : decodeTableWord 24 0x88A40D = some (.memWrite 100 77) := by decide
theorem test_tableWord_negStore : decodeTableWord 32 0x5B000A05 = some (.negStore 0 10 5) := by decide

/-- A placed word is fetched and run by the very next step after reset: V-LIM's first step, `MemRead(R1, R0)` at address 0,
here with zero bytes after it. -/
theorem test_placed_word_runs :
    leads (step (State.reset.withFetchWord 24 0x710100)) (fun t => t.readReg 1 == 0x00000171#32 && t.pc == 3 && t.count == 1) = true := by
  decide

/-! ### Single steps (V6) -/

theorem test_loadConst_replaces_all_bits :
    leads (exec (.loadConst 5 0x0ABCDEF1) (engine small [] [(5, 0xFFFFFFFF)]))
      (fun t => t.readReg 5 == 0x0ABCDEF1#32 && t.pc == 6 && t.count == 1) = true := by decide
/-- Register 0 is an ordinary register (decision D21). -/
theorem test_loadConst_register_zero :
    leads (exec (.loadConst 0 7) (engine small [] [])) (fun t => t.readReg 0 == 7#32) = true := by decide
theorem test_memRead_misaligned :
    leads (exec (.memRead 3 2) (engine small [0x9C, 0xFF, 0xFF, 0xFF, 0x12] [(2, 1)]))
      (fun t => t.readReg 3 == 0x12FFFFFF#32 && t.pc == 3) = true := by decide
/-- The address is read before the register is written. -/
theorem test_memRead_same_register :
    leads (exec (.memRead 2 2) (engine small [0, 0x04, 0x03, 0x02, 0x01] [(2, 1)])) (fun t => t.readReg 2 == 0x01020304#32) = true := by
  decide
theorem test_memWrite_misaligned :
    leads (exec (.memWrite 1 2) (engine small [] [(1, 0xAABBCCDD), (2, 5)]))
      (fun t => t.mem.readBytes 4 6 == [0, 0xDD, 0xCC, 0xBB, 0xAA, 0] && t.pc == 3) = true := by decide
/-- A failing store writes none of the bytes that would have fitted (P3). -/
theorem test_memWrite_fault :
    leads (exec (.memWrite 1 2) (engine small [] [(1, 0xAABBCCDD), (2, 61)]))
      (fun t => t.mem == [] && t.status == .halted .memoryFault && t.pc == 0 && t.count == 0) = true := by decide
theorem test_negStore_minus_100 :
    leads (exec (.negStore 4 2 1) (engine small [] [(1, 0x64), (2, 8)]))
      (fun t => t.mem.readBytes 12 4 == [0x9C, 0xFF, 0xFF, 0xFF] && t.readReg 1 == 0x64#32 && t.pc == 4) = true := by decide
/-- A 32-bit wrapping adder would store at 0x2F here (V6, decision D5). -/
theorem test_negStore_does_not_wrap :
    leads (exec (.negStore 63 3 1) (engine small [] [(1, 1), (3, 0xFFFFFFF0)]))
      (fun t => t.mem == [] && t.status == .halted .memoryFault) = true := by decide

/-! ### The step's ends (V7, V-LIM, V8) -/

theorem test_step_end : leads (step (engine small [] [])) (fun t => t.status == .halted .endOfProgram && t.pc == 0) = true := by decide
theorem test_step_limit_before_end :
    leads (step (engine ⟨64, 1, .image⟩ [0x48, 0x01, 0x00, 0x00, 0x01, 0x30] []))
      (fun t => t.status == .halted .instructionLimitExceeded && t.readReg 1 == 7#32 && t.pc == 6 && t.count == 1) = true := by
  decide
/-- In mode `memory` the byte after the image is fetched too (V7, image `71 03`). -/
theorem test_step_memory_mode :
    leads (step (engine ⟨64, 10, .memory⟩ [0x71, 0x03] [])) (fun t => t.readReg 3 == 0x00000371#32 && t.pc == 3) = true := by decide
theorem test_load_too_large : load [1, 2, 3] (State.created ⟨2, 1, .image⟩) = .failed .imageTooLarge := by decide
theorem test_create_refuses_limit_zero : create ⟨16, 0, .image⟩ = .refused .illegalParameters := by decide
theorem test_run_without_load :
    (match run (State.created ⟨0, 1, .memory⟩) with
      | .done r => decide (r.reason = .endOfProgram ∧ r.count = 0)
      | .failed _ => false
      | .refused _ => false) = true := by decide
theorem test_report_class :
    [HaltReason.endOfProgram, .unknownOpcode, .truncatedInstruction, .memoryFault, .instructionLimitExceeded].map
      HaltReason.reportClass = [.neverCrash, .genuineFault, .neverCrash, .fatalFault, .safetyStop] := by decide
theorem test_kind_names :
    ([HaltReason.endOfProgram, .unknownOpcode, .truncatedInstruction, .memoryFault, .instructionLimitExceeded].map
      HaltReason.kind ++ [EncodeError.kind .fieldOutOfRange, .imageTooLarge]).Nodup ∧
    EncodeError.kind .unknownOpcode = DecodeError.kind .unknownOpcode := by decide

/-! ### Witnesses: the codec -/

theorem test_witness_truncate_register : (0 : Int) ≤ 127 ∧ (127 : Int) < 128 := by decide
theorem test_witness_accepted_fields :
    encodeFields .reject ⟨72, 0, 268435455, -5⟩ = .ok [0x48, 0xC0, 0xFF, 0xFF, 0xFF, 0x30] ∧
    encodeFields .reject ⟨113, 127, 127, 0⟩ = .ok [0xF1, 0xFF, 0x1F] ∧
    encodeFields .reject ⟨8, 127, 127, 0⟩ = .ok [0x88, 0xFF, 0x1F] ∧
    encodeFields .reject ⟨91, 63, 127, 127⟩ = .ok [0xDB, 0xFF, 0xFF, 0x07] := by decide
/-- The same premise under `truncate`, for each shape; the LoadConst constant is one past its field. -/
theorem test_witness_truncated_fields :
    encodeFields .truncate ⟨72, 0, 268435457, -5⟩ = .ok [0x48, 0, 0, 0, 0, 0x10] ∧
    encodeFields .truncate ⟨113, 127, 127, 0⟩ = .ok [0xF1, 0xFF, 0x1F] ∧
    encodeFields .truncate ⟨8, 127, 127, 0⟩ = .ok [0x88, 0xFF, 0x1F] ∧
    encodeFields .truncate ⟨91, 63, 127, 127⟩ = .ok [0xDB, 0xFF, 0xFF, 0x07] := by decide
theorem test_witness_decoded_with_reserved_bits :
    decode [0x71, 0x03, 0xE2, 0x55] = .ok (.memRead 3 2, 3) ∧ ¬ (encode (.memRead 3 2) = [0x71, 0x03, 0xE2]) := by decide
theorem test_witness_unpacking_opcodes :
    (0xC8#8).toNat % 128 = 72 ∧ (0xF1#8).toNat % 128 = 113 ∧ (0x88#8).toNat % 128 = 8 ∧ (0xDB#8).toNat % 128 = 91 := by decide
/-- One call for each clause of EncoderConditions, at its boundary. -/
theorem test_witness_encoder_clauses :
    encodeFields .reject ⟨0, 0, 0, 0⟩ = .error .unknownOpcode ∧
    encodeFields .reject ⟨72, 127, 268435455, 0⟩ = .ok [0xC8, 0xFF, 0xFF, 0xFF, 0xFF, 0x30] ∧
    encodeFields .reject ⟨72, 0, 268435456, 0⟩ = .error .fieldOutOfRange ∧
    encodeFields .truncate ⟨72, 0, 268435456, 0⟩ = .ok [0x48, 0, 0, 0, 0, 0] ∧
    encodeFields .truncate ⟨8, 128, 0, 0⟩ = .error .fieldOutOfRange ∧
    encodeFields .truncate ⟨91, 63, 127, 128⟩ = .error .fieldOutOfRange := by decide

theorem test_witness_port_values : (-2 ^ 31 : Int) ≤ -100 ∧ (-100 : Int) < 2 ^ 32 ∧
    encodePorts .truncate 72 1 (BitVec.ofInt 32 (-100)) 0 = .ok [0x48, 0xC1, 0xFF, 0xFF, 0xE7, 0x00] ∧
    encodePorts .reject 72 (BitVec.ofInt 32 (-1)) 0 0 = .error .fieldOutOfRange := by decide

/-- The premises of ReservedBitsWrittenZeroAndIgnored: two engines whose windows differ in the reserved bits of `MemRead`. -/
theorem test_witness_reserved_bits :
    (engine small [0x71, 0x03, 0xE2] []).Inv ∧ (engine small [0x71, 0x03, 0x02] []).Inv ∧
    decode (engine small [0x71, 0x03, 0xE2] []).window = .ok (.memRead 3 2, 3) ∧
    (engine small [0x71, 0x03, 0x02] []).window =
      clearReserved ((engine small [0x71, 0x03, 0xE2] []).window.take 3) ++ (engine small [0x71, 0x03, 0xE2] []).window.drop 3 :=
  ⟨(inv_engine _ _ _ (by decide) (by decide)).1, (inv_engine _ _ _ (by decide) (by decide)).1, by decide, by decide⟩

/-! ### Witnesses: arithmetic, memory, instructions -/

theorem test_witness_negated_value : (1 : Word) ≠ 0 ∧ (1 : Word) ≠ 0x80000000#32 := by decide
/-- The premises of DoubleNegationRestores, one after the other (P2): NegStore(4,R2,R3), MemRead(R5,R4), NegStore(8,R2,R5),
MemRead(R7,R6). -/
theorem test_witness_double_negation :
    leads (exec (.negStore 4 2 3) (engine small [] [(2, 16), (3, 0x01234567), (4, 20), (6, 24)])) (fun t1 =>
      t1.indirectAddress 4 == 20 && leads (exec (.memRead 5 4) t1) (fun t2 =>
        decide (t2.offsetAddress 2 8 + 4 ≤ t2.params.memorySize) && leads (exec (.negStore 8 2 5) t2) (fun t3 =>
          t3.indirectAddress 6 == t2.offsetAddress 2 8 &&
            leads (exec (.memRead 7 6) t3) (fun t4 => t4.readReg 7 == 0x01234567#32)))) = true := by decide
theorem test_witness_access_primitives :
    (engine small [0x9C, 0xFF, 0xFF, 0xFF] []).loadWord 0 = some 0xFFFFFF9C#32 ∧
    ((State.reset).storeWord 0x600 0xFFFFFF9C#32).isSome = true := by decide
theorem test_witness_canonical_memories : Memory.wf [(3, 1#8), (9, 2#8)] ∧ ¬ Memory.wf [(3, 1#8), (3, 2#8)] ∧ ¬ Memory.wf [(3, 0#8)] := by
  decide
theorem test_witness_last_word_and_first_fault :
    ((engine small [] [(2, 60)]).readReg 2).toNat + 4 ≤ (engine small [] [(2, 60)]).params.memorySize ∧
    (engine small [] [(2, 61)]).params.memorySize < ((engine small [] [(2, 61)]).readReg 2).toNat + 4 := by decide
theorem test_witness_negStore_last_word_and_first_fault :
    (engine small [] [(2, 0)]).offsetAddress 2 60 + 4 ≤ (engine small [] [(2, 0)]).params.memorySize ∧
    (engine small [] [(2, 0)]).params.memorySize < ((engine small [] [(2, 0)]).readReg 2).toNat + (61#6).toNat + 4 := by decide
/-- The last clause of MemoryFaultIsTheBoundAndChangesNothing: a MemoryFault from an engine that was not so halted. -/
theorem test_witness_fault_outcome :
    (engine small [] [(2, 61)]).status ≠ .halted .memoryFault ∧
    leads (exec (.memRead 3 2) (engine small [] [(2, 61)])) (fun t => t.status == .halted .memoryFault) = true := by decide
/-- Two engines that differ in the register `MemRead(R3, R2)` writes and does not read. -/
theorem test_witness_other_register :
    (∃ regs, engine small [] [(2, 60), (3, 1)] = { engine small [] [(2, 60)] with regs := regs }) ∧
    (∀ r ∈ (Instr.memRead 3 2).readRegs, (engine small [] [(2, 60), (3, 1)]).readReg r = (engine small [] [(2, 60)]).readReg r) ∧
    (engine small [] [(2, 60), (3, 1)]).readReg 3 ≠ (engine small [] [(2, 60)]).readReg 3 :=
  ⟨⟨_, rfl⟩, by decide, by decide⟩
/-- The two cases of OnlyTheNamedRegistersAreReadAndWritten at the bound: the last word, and the first address that faults. -/
theorem test_witness_written_register_cases :
    ¬ (Instr.memRead 3 2).FaultsIn (engine small [] [(2, 60)]) ∧ (Instr.memRead 3 2).FaultsIn (engine small [] [(2, 61)]) :=
  ⟨fun ⟨_, h, hlt⟩ => by cases h; exact absurd hlt (by decide), _, rfl, by decide⟩

/-! ### Witnesses: the step and the run -/

/-- `MemWrite(R1, R2)` then `MemRead(R3, R2)` (S7), storing outside the second instruction. -/
theorem test_witness_write_then_read :
    (engine small [0x08, 0x01, 0x02, 0x71, 0x03, 0x02] [(1, 7), (2, 6)]).Inv ∧
    decode (engine small [0x08, 0x01, 0x02, 0x71, 0x03, 0x02] [(1, 7), (2, 6)]).window = .ok (.memWrite 1 2, 3) ∧
    decode ((engine small [0x08, 0x01, 0x02, 0x71, 0x03, 0x02] [(1, 7), (2, 6)]).mem.readBytes 3 3) = .ok (.memRead 3 2, 3) ∧
    (engine small [0x08, 0x01, 0x02, 0x71, 0x03, 0x02] [(1, 7), (2, 6)]).indirectAddress 2 = 6 ∧
    (engine small [0x08, 0x01, 0x02, 0x71, 0x03, 0x02] [(1, 7), (2, 6)]).fetchLimit = 6 :=
  ⟨(inv_engine _ _ _ (by decide) (by decide)).1, by decide, by decide, by decide, by decide⟩
theorem test_witness_running_decodes :
    (engine small [0x71, 0x03, 0x02] []).Inv ∧ (engine small [0x71, 0x03, 0x02] []).status = .running ∧
    decode (engine small [0x71, 0x03, 0x02] []).window = .ok (.memRead 3 2, 3) :=
  ⟨(inv_engine _ _ _ (by decide) (by decide)).1, by decide, by decide⟩
/-- The premises of the three halting steps, each at its boundary: no byte, an unknown opcode in the last byte, and one byte
missing. -/
theorem test_witness_halting_steps :
    ((engine small [] []).Inv ∧ (engine small [] []).fetchLimit - (engine small [] []).pc < 1) ∧
    ((engine small [0x49] []).Inv ∧ ¬ RecognisedOpcode (((engine small [0x49] []).mem.read 0).toNat % 128)) ∧
    ((engine small [0xDB, 0, 0] []).Inv ∧ RecognisedOpcode (((engine small [0xDB, 0, 0] []).mem.read 0).toNat % 128) ∧
      (engine small [0xDB, 0, 0] []).fetchLimit < sizeOfOpcode (((engine small [0xDB, 0, 0] []).mem.read 0).toNat % 128)) :=
  ⟨⟨(inv_engine _ _ _ (by decide) (by decide)).1, by decide⟩, ⟨(inv_engine _ _ _ (by decide) (by decide)).1, by decide⟩,
    (inv_engine _ _ _ (by decide) (by decide)).1, by decide, by decide⟩
/-- A step for each way a run state can change (R100): to each halt reason, and on to Running. -/
theorem test_witness_transitions :
    leads (step (engine small [] [])) (fun t => t.status == .halted .endOfProgram) = true ∧
    leads (step (engine small [0] [])) (fun t => t.status == .halted .unknownOpcode) = true ∧
    leads (step (engine small [0x08] [])) (fun t => t.status == .halted .truncatedInstruction) = true ∧
    leads (step (engine small [0x08, 1, 2] [(2, 61)])) (fun t => t.status == .halted .memoryFault) = true ∧
    leads (step (engine ⟨64, 1, .image⟩ [0x08, 1, 2] [])) (fun t => t.status == .halted .instructionLimitExceeded) = true ∧
    leads (step (engine small [0x08, 1, 2] [])) (fun t => t.status == .running) = true := by decide
/-- A store over the next instruction (P4), as StoresIntoCodeAreFetched asks. -/
theorem test_witness_store_into_code :
    decode (engine small [0x08, 1, 2, 0x5B, 4, 0, 0] [(1, 0x0202055B), (2, 3)]).window = .ok (.memWrite 1 2, 3) ∧
    (engine small [0x08, 1, 2, 0x5B, 4, 0, 0] [(1, 0x0202055B), (2, 3)]).indirectAddress 2 + 4 ≤ 64 ∧
    Instr.storedWord (engine small [0x08, 1, 2, 0x5B, 4, 0, 0] [(1, 0x0202055B), (2, 3)]) (.memWrite 1 2) = some (3, 0x0202055B#32) ∧
    leads (step (engine small [0x08, 1, 2, 0x5B, 4, 0, 0] [(1, 0x0202055B), (2, 3)]))
      (fun t => t.pc == 3 && t.fetchLimit == 7 && t.window == [0x5B, 0x05, 0x02, 0x02]) = true := by decide
theorem test_witness_not_started : (State.created small).status = .notStarted ∧ small.Legal := by decide
/-- A load that succeeds and a run of the engine it gives, with the limit reached and not reached. -/
theorem test_witness_runs :
    (match load [0x08, 1, 2] (State.created ⟨64, 1, .image⟩), load [0x08, 1, 2] (State.created ⟨64, 2, .image⟩) with
      | .done s, .done t =>
        (match run s, run t with
          | .done r, .done q => decide (r.reason = .instructionLimitExceeded ∧ r.count = 1 ∧ q.reason = .endOfProgram ∧ q.count = 1)
          | _, _ => false)
      | _, _ => false) = true := by decide
theorem test_witness_halted : ((State.created small).halt .endOfProgram).status = .halted .endOfProgram := by decide
/-- The accessors' clauses at their boundaries: the last register, the first that is none, all of memory, one byte too many. -/
theorem test_witness_accessors :
    register 127 (State.created small) = .done 0#32 ∧ register 128 (State.created small) = .refused .accessorArgument ∧
    memoryRange 64 64 (State.created small) = .done [] ∧ memoryRange 0 65 (State.created small) = .refused .accessorArgument ∧
    register 0 (engine small [] []) = .refused .accessorNotAdmitted ∧
    memoryRange 0 0 (engine small [] []) = .refused .accessorNotAdmitted := by
  decide

end Sys2Proof.Tests
end

section
/-! Facts about the state that the claims of spec/10_state.md need: registers, memory and accessors after each operation. -/

namespace Sys2Proof.Machine

/-! ### A new engine (R25, R181) -/

@[simp] theorem State.created_fetchLimit (p : Params) :
    (State.created p).fetchLimit = if p.fetchMode = .image then 0 else p.memorySize := by
  cases hm : p.fetchMode <;> simp [State.created, hm]

/-- Every new engine with legal parameters has the invariant: it is fresh, and its fetch limit is 0 or MEMORY_SIZE. -/
theorem State.created_inv {p : Params} (hp : p.Legal) : (State.created p).Inv where
  paramsLegal := hp
  memCanonical := State.created_mem_wf p
  memInside := by simp [State.created]
  fetchInside := by
    rw [State.created_fetchLimit]
    split
    · exact Nat.zero_le _
    · exact Nat.le_refl _
  fetchWhole := fun hm => by
    have hm : p.fetchMode = .memory := hm
    simp [hm, State.created]
  pcInside := Nat.zero_le _
  countInside := Nat.zero_le _
  countRunning := fun _ => hp.2
  pcAtLeast := Nat.le_refl 0
  pcAtMost := Nat.le_refl 0
  fresh := fun _ => ⟨rfl, rfl, fun r => State.created_readReg r p⟩
  unloaded := fun _ _ => ⟨rfl, fun hm => by
    have hm : p.fetchMode = .image := hm
    simp [hm]⟩

/-! ### What a load gives (R182) -/

/-- A load that is done was admitted, had room, and put the image in place. -/
theorem load_done {bytes : List Byte} {s t : State} (h : load bytes s = .done t) :
    s.status = .notStarted ∧ s.loaded = false ∧ bytes.length ≤ s.params.memorySize ∧ t = s.withImage bytes := by
  unfold load at h
  split at h
  · rename_i hadmitted
    obtain ⟨hs, hloaded⟩ := hadmitted
    split at h
    · cases h
    · rename_i hroom
      cases h
      exact ⟨hs, hloaded, Nat.not_lt.mp hroom, rfl⟩
  · cases h

@[simp] theorem State.withImage_readReg (s : State) (bytes : List Byte) (r : RegIndex) :
    (s.withImage bytes).readReg r = s.readReg r := rfl

/-! ### Memory as cells and as bytes in a row -/

/-- A stored word lists no address but its four and those listed before. -/
theorem Memory.mem_writeWord {m : Memory} {a : Nat} {v : Word} {c : Host.Cell} (h : c ∈ m.writeWord a v) :
    (a ≤ c.1 ∧ c.1 < a + 4) ∨ c ∈ m :=
  Memory.mem_writeBytes h

theorem Memory.readBytes_getElem? (m : Memory) (a : Nat) {n k : Nat} (h : k < n) :
    (m.readBytes a n)[k]? = some (m.read (a + k)) := by
  have hk : k < (m.readBytes a n).length := by simpa using h
  rw [List.getElem?_eq_getElem hk, Memory.readBytes_getElem]

/-! ### The accessors (R24) -/

theorem register_of_running {s : State} (h : s.status = .running) (i : Nat) :
    register i s = .refused .accessorNotAdmitted := by
  simp [register, h]

theorem memoryRange_of_running {s : State} (h : s.status = .running) (lo hi : Nat) :
    memoryRange lo hi s = .refused .accessorNotAdmitted := by
  simp [memoryRange, h]

theorem register_of_not_running {s : State} (h : s.status ≠ .running) (i : Nat) :
    register i s = if i < 128 then .done (s.readReg (BitVec.ofNat 7 i)) else .refused .accessorArgument := by
  simp [register, h]

theorem memoryRange_of_not_running {s : State} (h : s.status ≠ .running) (lo hi : Nat) :
    memoryRange lo hi s = if lo ≤ hi ∧ hi ≤ s.params.memorySize then .done (s.mem.readBytes lo (hi - lo))
      else .refused .accessorArgument := by
  simp [memoryRange, h]

end Sys2Proof.Machine
end

section
/-! What an instruction leaves in memory and in the registers, and on which registers that depends (R11, R38, R111). -/

namespace Sys2Proof.Machine

/-! ### The data access -/

theorem not_faultsIn_of_dataAddress {i : Instr} {s : State} {a : Nat} (ha : i.dataAddress s = some a) :
    ¬ i.FaultsIn s ↔ a + 4 ≤ s.params.memorySize := by
  simp [Instr.FaultsIn, ha]

/-- An instruction stores where it makes its data access. -/
theorem dataAddress_of_storedWord {i : Instr} {s : State} {a : Nat} {v : Word} (h : i.storedWord s = some (a, v)) :
    i.dataAddress s = some a := by
  cases i with
  | loadConst d c => cases h
  | memRead d b => cases h
  | memWrite r b => cases h; rfl
  | negStore o b r => cases h; rfl

theorem exec_of_faultsIn {i : Instr} {s : State} (h : i.FaultsIn s) : exec i s = .next (s.halt .memoryFault) := by
  rcases exec_cases i s with ⟨_, he⟩ | ⟨hn, _⟩
  · exact he
  · exact absurd h hn

theorem exec_of_not_faultsIn {i : Instr} {s : State} (h : ¬ i.FaultsIn s) : exec i s = .next (effect i s) := by
  rcases exec_cases i s with ⟨hf, _⟩ | ⟨_, he⟩
  · exact absurd hf h
  · exact he

/-! ### Memory -/

theorem effect_mem_of_storedWord_none {i : Instr} {s : State} (h : i.storedWord s = none) :
    (effect i s).mem = s.mem := by
  cases i with
  | loadConst d c => rfl
  | memRead d b => rfl
  | memWrite r b => cases h
  | negStore o b r => cases h

theorem effect_mem_of_storedWord_some {i : Instr} {s : State} {a : Nat} {v : Word}
    (h : i.storedWord s = some (a, v)) : (effect i s).mem = s.mem.writeWord a v := by
  cases i with
  | loadConst d c => cases h
  | memRead d b => cases h
  | memWrite r b => cases h; rfl
  | negStore o b r => cases h; rfl

/-- An instruction leaves memory alone or stores one word at the address of its data access. -/
theorem effect_mem_cases (i : Instr) (s : State) : (effect i s).mem = s.mem ∨
    ∃ a v, i.dataAddress s = some a ∧ (effect i s).mem = s.mem.writeWord a v := by
  cases h : i.storedWord s with
  | none => exact .inl (effect_mem_of_storedWord_none h)
  | some w => exact .inr ⟨w.1, w.2, dataAddress_of_storedWord h, effect_mem_of_storedWord_some h⟩

theorem effect_mem_wf (i : Instr) {s : State} (h : s.mem.wf) : (effect i s).mem.wf := by
  rcases effect_mem_cases i s with he | ⟨a, v, _, he⟩
  · rw [he]; exact h
  · rw [he]; exact Memory.wf_writeWord h a v

/-- An access within the bound lists no byte beyond MEMORY_SIZE (R30, R36). -/
theorem effect_mem_inside {i : Instr} {s : State} (hf : ¬ i.FaultsIn s)
    (h : ∀ c ∈ s.mem, c.1 < s.params.memorySize) : ∀ c ∈ (effect i s).mem, c.1 < s.params.memorySize := by
  intro c hc
  rcases effect_mem_cases i s with he | ⟨a, v, ha, he⟩
  · exact h c (he ▸ hc)
  · have hbound := (not_faultsIn_of_dataAddress ha).mp hf
    rcases Memory.mem_writeWord (he ▸ hc) with ⟨_, hlt⟩ | hc
    · omega
    · exact h c hc

/-! ### Registers (R11) -/

/-- No register but the written one changes. -/
theorem effect_readReg_of_not_written {i : Instr} {r : RegIndex} (s : State) (h : i.writtenReg ≠ some r) :
    (effect i s).readReg r = s.readReg r := by
  cases i with
  | loadConst d v =>
    have hd : r ≠ d := fun e => h (by rw [e]; rfl)
    simp [effect, State.readReg_writeReg_ne _ _ _ _ hd]
  | memRead d a =>
    have hd : r ≠ d := fun e => h (by rw [e]; rfl)
    simp [effect, State.readReg_writeReg_ne _ _ _ _ hd]
  | memWrite q a => rfl
  | negStore o b q => rfl

section
variable {i : Instr} {s : State} {regs : Vector Word 128}
  (hr : ∀ r ∈ i.readRegs, State.readReg { s with regs := regs } r = s.readReg r)
include hr

/-- The address of the data access depends on no register but those the instruction reads. -/
theorem dataAddress_congr : i.dataAddress { s with regs := regs } = i.dataAddress s := by
  cases i with
  | loadConst d v => rfl
  | memRead d a => simp [Instr.dataAddress, State.indirectAddress, hr a (by simp [Instr.readRegs])]
  | memWrite q a => simp [Instr.dataAddress, State.indirectAddress, hr a (by simp [Instr.readRegs])]
  | negStore o b q => simp [Instr.dataAddress, State.offsetAddress, hr b (by simp [Instr.readRegs])]

theorem faultsIn_congr : i.FaultsIn { s with regs := regs } ↔ i.FaultsIn s := by
  simp [Instr.FaultsIn, dataAddress_congr hr]

/-- The stored word and its address depend on no register but those the instruction reads. -/
theorem storedWord_congr : i.storedWord { s with regs := regs } = i.storedWord s := by
  cases i with
  | loadConst d v => rfl
  | memRead d a => rfl
  | memWrite q a =>
    simp [Instr.storedWord, State.indirectAddress, hr a (by simp [Instr.readRegs]), hr q (by simp [Instr.readRegs])]
  | negStore o b q =>
    simp [Instr.storedWord, State.offsetAddress, hr b (by simp [Instr.readRegs]), hr q (by simp [Instr.readRegs])]

theorem effect_mem_congr : (effect i { s with regs := regs }).mem = (effect i s).mem := by
  cases h : i.storedWord s with
  | none =>
    rw [effect_mem_of_storedWord_none h, effect_mem_of_storedWord_none ((storedWord_congr hr).trans h)]
  | some w =>
    rw [effect_mem_of_storedWord_some h, effect_mem_of_storedWord_some ((storedWord_congr hr).trans h)]

/-- All but the registers comes out equal. -/
theorem effect_congr_but_regs :
    effect i { s with regs := regs } = { effect i s with regs := (effect i { s with regs := regs }).regs } := by
  have hmem := effect_mem_congr hr
  rw [State.mk.injEq]
  simp [hmem]

/-- The written register comes out equal. -/
theorem effect_written_congr {r : RegIndex} (hw : i.writtenReg = some r) :
    (effect i s).readReg r = (effect i { s with regs := regs }).readReg r := by
  cases i with
  | loadConst d v => cases hw; simp [effect]
  | memRead d a => cases hw; simp [effect, State.indirectAddress, hr a (by simp [Instr.readRegs])]
  | memWrite q a => cases hw
  | negStore o b q => cases hw

end

/-- At most two registers are read (R11). -/
theorem readRegs_length_le_two (i : Instr) : i.readRegs.length ≤ 2 := by
  cases i <;> simp [Instr.readRegs]

end Sys2Proof.Machine
end

section
/-! Every step keeps the invariant: a halt changes the status alone, and an executed instruction was fetched whole below the fetch
limit, accessed memory within the bound, and is followed by the test of INSTRUCTION_LIMIT. -/

namespace Sys2Proof.Machine

/-- The bytes of a decoded instruction lie below the fetch limit (R92, R101). -/
theorem decode_window_fits {s : State} {i : Instr} {n : Nat} (h : decode s.window = .ok (i, n)) :
    s.pc + i.size ≤ s.fetchLimit := by
  obtain ⟨rfl, hlen⟩ := decode_ok_size h
  have hsize := i.three_le_size
  simp only [State.window, Memory.readBytes_length] at hlen
  omega

/-- After step 5 a running engine is below INSTRUCTION_LIMIT (R106). -/
theorem State.count_lt_of_checkLimit_running {s : State} (h : s.checkLimit.status = .running) :
    s.count < s.params.instructionLimit := by
  rw [State.checkLimit_status] at h
  split at h
  · cases h
  · rename_i hn
    exact Nat.not_le.mp fun hle => hn ⟨h, hle⟩

/-- A started engine does not go back to NotStarted at step 5. -/
theorem State.checkLimit_ne_notStarted {s : State} (h : s.status = .running) : s.checkLimit.status ≠ .notStarted := by
  rw [State.checkLimit_status]
  split <;> simp [h]

theorem State.Inv.halt {s : State} (h : s.Inv) (reason : HaltReason) : (s.halt reason).Inv where
  paramsLegal := h.paramsLegal
  memCanonical := h.memCanonical
  memInside := h.memInside
  fetchInside := h.fetchInside
  fetchWhole := h.fetchWhole
  pcInside := h.pcInside
  countInside := h.countInside
  countRunning := by simp
  pcAtLeast := h.pcAtLeast
  pcAtMost := h.pcAtMost
  fresh := by simp
  unloaded := by simp

/-- An instruction whose bytes lie below the fetch limit and whose access is within the bound keeps the invariant, once the limit
has been tested. -/
theorem State.Inv.effect_checkLimit {s : State} {i : Instr} (h : s.Inv) (hs : s.status = .running)
    (hfits : s.pc + i.size ≤ s.fetchLimit) (hf : ¬ i.FaultsIn s) : (effect i s).checkLimit.Inv where
  paramsLegal := by simpa using h.paramsLegal
  memCanonical := by simpa using effect_mem_wf i h.memCanonical
  memInside := by simpa using effect_mem_inside hf h.memInside
  fetchInside := by simpa using h.fetchInside
  fetchWhole := by simpa using h.fetchWhole
  pcInside := by simpa using hfits
  countInside := by simpa using h.countRunning hs
  countRunning := by simpa using State.count_lt_of_checkLimit_running (s := effect i s)
  pcAtLeast := by
    have hcount := h.pcAtLeast
    have hsize := i.three_le_size
    simp only [State.checkLimit_count, State.checkLimit_pc, effect_count, effect_pc]
    omega
  pcAtMost := by
    have hcount := h.pcAtMost
    have hsize := i.size_le_six
    simp only [State.checkLimit_count, State.checkLimit_pc, effect_count, effect_pc]
    omega
  fresh := fun hn => absurd hn (State.checkLimit_ne_notStarted (by simpa using hs))
  unloaded := fun hn => absurd hn (State.checkLimit_ne_notStarted (by simpa using hs))

theorem State.Inv.step {s t : State} (h : s.Inv) (hstep : step s = .next t) : t.Inv := by
  obtain ⟨hs, -, ⟨e, -, rfl⟩ | ⟨i, n, -, -, rfl⟩ | ⟨i, n, hd, hf, rfl⟩⟩ := step_cases hstep
  · exact h.halt _
  · exact h.halt _
  · exact h.effect_checkLimit hs (decode_window_fits hd) hf

end Sys2Proof.Machine
end

section
/-! The claims of spec/10_state.md, each from the lemmas above. -/

namespace Sys2Proof.Proofs

open Sys2Proof.Machine

/-- Settles O41, by the three outcomes of a step. -/
theorem stepKeepsTheInvariant : Obligations.StepKeepsTheInvariant :=
  fun _ _ h hstep => h.step hstep

/-- Settles O27: both runs fault or both have their effect, which the registers read determine. -/
theorem onlyTheNamedRegistersAreReadAndWritten : Obligations.OnlyTheNamedRegistersAreReadAndWritten := by
  refine ⟨readRegs_length_le_two, fun bytes s t hload r => ?_, ?_⟩
  · obtain ⟨-, -, -, rfl⟩ := load_done hload
    exact State.withImage_readReg s bytes r
  · rintro i s _ ⟨regs, rfl⟩ hr
    have hiff := faultsIn_congr hr
    by_cases hf : i.FaultsIn s
    · exact ⟨_, _, exec_of_faultsIn hf, exec_of_faultsIn (hiff.mpr hf), ⟨regs, rfl⟩, fun _ _ => ⟨rfl, rfl⟩,
        fun hn => absurd hf hn, fun _ => ⟨fun _ => rfl, fun _ => rfl⟩⟩
    · exact ⟨_, _, exec_of_not_faultsIn hf, exec_of_not_faultsIn (mt hiff.mp hf), ⟨_, effect_congr_but_regs hr⟩,
        fun _ hw => ⟨effect_readReg_of_not_written _ hw, effect_readReg_of_not_written _ hw⟩,
        fun _ _ hw => effect_written_congr hr hw, fun h => absurd h hf⟩

/-- Settles O38, by the three outcomes of a step. -/
theorem stepsKeepTheInstance : Obligations.StepsKeepTheInstance := by
  intro s t hstep
  obtain ⟨-, -, ⟨e, -, rfl⟩ | ⟨i, n, -, -, rfl⟩ | ⟨i, n, -, -, rfl⟩⟩ := step_cases hstep
  · exact ⟨rfl, rfl, rfl⟩
  · exact ⟨rfl, rfl, rfl⟩
  · simp

/-- Settles O49, by what each accessor answers while Running and otherwise. -/
theorem accessorsReadTheState : Obligations.AccessorsReadTheState := by
  refine fun s => ⟨fun h => ⟨register_of_running h, memoryRange_of_running h⟩, fun h => ⟨?_, ?_, ?_⟩⟩
  · intro i
    simp [register_of_not_running h, i.isLt]
  · intro i hi
    simp [register_of_not_running h, Nat.not_lt.mpr hi]
  · intro lo hi
    rw [memoryRange_of_not_running h]
    split
    · exact ⟨_, rfl, Memory.readBytes_length _ _ _, fun k hk => Memory.readBytes_getElem? _ _ hk⟩
    · rfl

/-- Settles O19, by the register file's read after a write. -/
theorem registerSelection : Obligations.RegisterSelection :=
  ⟨fun s r v => ⟨State.readReg_writeReg_self s r v, fun q hq => State.readReg_writeReg_ne s r q v hq, _, rfl⟩,
    fun p r => State.created_readReg r p⟩

/-- Settles O40: State.reset is the new engine with the default parameters, which are legal. -/
theorem createdEnginesHaveTheInvariant : Obligations.CreatedEnginesHaveTheInvariant :=
  ⟨fun _ hp => State.created_inv hp, State.created_inv (by decide)⟩

/-- Settles O45, field by field. -/
theorem resetState : Obligations.ResetState :=
  ⟨fun p => ⟨fun r => State.created_readReg r p, Memory.read_nil, rfl, rfl, rfl, rfl, State.created_fetchLimit p⟩, rfl⟩

end Sys2Proof.Proofs
end

section
/-! Facts about memory that the claims of spec/20_memory.md need: the cells of a canonical memory are its nonzero bytes, and bytes
and words just written read back. -/

namespace Sys2Proof.Machine

/-! ### The canonical form determines the data -/

/-- Where addresses strictly rise, a listed cell is what its address reads as. -/
theorem Memory.read_of_mem {m : Memory} {c : Host.Cell} (h : m.Pairwise (fun c d => c.1 < d.1)) (hc : c ∈ m) :
    m.read c.1 = c.2 := by
  induction m with
  | nil => cases hc
  | cons d m ih =>
    obtain ⟨hd, hm⟩ := List.pairwise_cons.mp h
    rcases List.mem_cons.mp hc with rfl | hc
    · simp [Memory.read]
    · simp [Memory.read, (hd c hc).ne, ih hm hc]

/-- A byte that does not read as its reset value is listed (R25). -/
theorem Memory.mem_of_read_ne_zero {m : Memory} {a : Nat} (h : m.read a ≠ 0#8) : (a, m.read a) ∈ m := by
  induction m with
  | nil => simp at h
  | cons d m ih =>
    by_cases hd : d.1 = a
    · subst hd; simp [Memory.read]
    · simp only [Memory.read, if_neg hd] at h ⊢
      exact List.mem_cons_of_mem d (ih h)

/-- A canonical memory lists exactly its nonzero bytes. -/
theorem Memory.mem_iff_read {m : Memory} (h : m.wf) {c : Host.Cell} : c ∈ m ↔ m.read c.1 = c.2 ∧ c.2 ≠ 0#8 := by
  constructor
  · exact fun hc => ⟨Memory.read_of_mem h.1 hc, h.2 c hc⟩
  · rintro ⟨hr, hne⟩
    have hc := Memory.mem_of_read_ne_zero (hr ▸ hne)
    rwa [hr] at hc

/-- Canonical memories that read alike list the same cells, in the one rising order. -/
theorem Memory.eq_of_read {m k : Memory} (hm : m.wf) (hk : k.wf) (h : ∀ a, m.read a = k.read a) : m = k := by
  have hperm : m.Perm k :=
    (List.perm_ext_iff_of_nodup (hm.1.imp fun hlt e => hlt.ne (congrArg Prod.fst e))
      (hk.1.imp fun hlt e => hlt.ne (congrArg Prod.fst e))).mpr
      fun c => by rw [Memory.mem_iff_read hm, Memory.mem_iff_read hk, h]
  exact hperm.eq_of_pairwise (fun _ _ _ _ hlt hgt => absurd hgt hlt.asymm) hm.1 hk.1

theorem Memory.write_read_self {m : Memory} (h : m.wf) (a : Nat) : m.write a (m.read a) = m := by
  refine Memory.eq_of_read (Memory.wf_write h _ _) h fun x => ?_
  rw [Memory.read_write]
  split
  · rename_i hx; rw [hx]
  · rfl

/-! ### Bytes just written -/

/-- Each byte written in a row stands at its own address (R37). -/
theorem Memory.read_writeBytes_add (m : Memory) (a : Nat) {bs : List Byte} {k : Nat} (h : k < bs.length) :
    (m.writeBytes a bs).read (a + k) = bs[k] := by
  simp [Memory.read_writeBytes, h]

theorem Memory.readBytes_writeBytes (m : Memory) (a : Nat) (bs : List Byte) :
    (m.writeBytes a bs).readBytes a bs.length = bs := by
  refine List.ext_getElem (Memory.readBytes_length _ _ _) fun k _ hk => ?_
  rw [Memory.readBytes_getElem, Memory.read_writeBytes_add m a hk]

/-- Writing the same bytes at the same place again changes nothing in a canonical memory. -/
theorem Memory.writeBytes_writeBytes {m : Memory} (h : m.wf) (a : Nat) (bs : List Byte) :
    (m.writeBytes a bs).writeBytes a bs = m.writeBytes a bs := by
  have hw := Memory.wf_writeBytes bs h a
  refine Memory.eq_of_read (Memory.wf_writeBytes bs hw a) hw fun x => ?_
  rw [Memory.read_writeBytes bs (m.writeBytes a bs), Memory.read_writeBytes]
  split <;> rfl

/-! ### A stored word read back off by one byte (R47) -/

theorem Memory.readWord_succ_writeWord (m : Memory) (a : Nat) (v : Word) : (m.writeWord a v).readWord (a + 1) =
    le32 (v.extractLsb 15 8) (v.extractLsb 23 16) (v.extractLsb 31 24) (m.read (a + 4)) := by
  simp [Memory.readWord, Memory.read_writeWord, Nat.add_assoc]

theorem Memory.readWord_writeWord_succ (m : Memory) (a : Nat) (v : Word) : (m.writeWord (a + 1) v).readWord a =
    le32 (m.read a) (v.extractLsb 7 0) (v.extractLsb 15 8) (v.extractLsb 23 16) := by
  simp [Memory.readWord, Memory.read_writeWord, Nat.add_assoc]

/-! ### The access primitives (R37) and the fetch window (R42) -/

theorem State.loadWord_some {s : State} {a : Nat} {w : Word} (h : s.loadWord a = some w) : w = s.mem.readWord a := by
  rw [State.loadWord_eq] at h
  split at h
  · cases h; rfl
  · cases h

theorem State.storeWord_some {s t : State} {a : Nat} {v : Word} (h : s.storeWord a v = some t) :
    t = { s with mem := s.mem.writeWord a v } := by
  rw [State.storeWord_eq] at h
  split at h
  · cases h; rfl
  · cases h

/-- A successful store leaves the word's bytes in ascending order at its address (R32). -/
theorem State.storeWord_readBytes {s t : State} {a : Nat} {v : Word} (h : s.storeWord a v = some t) :
    t.mem.readBytes a 4 = littleEndianBytes v := by
  rw [State.storeWord_some h]
  exact Memory.readBytes_writeBytes s.mem a (littleEndianBytes v)

/-- The number each byte of a split word stands for (R32). -/
theorem littleEndianBytes_toNat (v : Word) : (littleEndianBytes v).map BitVec.toNat =
    [v.toNat % 256, v.toNat / 2 ^ 8 % 256, v.toNat / 2 ^ 16 % 256, v.toNat / 2 ^ 24] := by
  have hv := v.isLt
  simp only [littleEndianBytes, List.map_cons, List.map_nil, toNat_extractLsb_eq, List.cons.injEq, and_true]
  omega

/-- Each of the next six bytes below the fetch limit stands in the window at its place (R42, R101). -/
theorem State.window_getElem? {s : State} {a : Nat} (hpc : s.pc ≤ a) (hsix : a < s.pc + 6) (hlimit : a < s.fetchLimit) :
    s.window[a - s.pc]? = some (s.mem.read a) := by
  rw [State.window, Memory.readBytes_getElem? _ _ (by omega), Nat.add_sub_cancel' hpc]

/-! ### An instruction that does not fault -/

/-- A step whose instruction decoded and did not fault is its effect and the test of INSTRUCTION_LIMIT (R105, R106). -/
theorem step_eq_effect {s t : State} {i : Instr} {n : Nat} (h : step s = .next t) (hd : decode s.window = .ok (i, n))
    (hf : ¬ i.FaultsIn s) : t = (effect i s).checkLimit := by
  obtain ⟨hs, hfetch, -⟩ := step_cases h
  rw [step_decode_ok hs hfetch hd, exec_of_not_faultsIn hf] at h
  cases h; rfl

/-- An instruction that newly halts with MemoryFault accessed memory beyond its end (R154). -/
theorem faultsIn_of_exec_memoryFault {i : Instr} {s t : State} (h : exec i s = .next t)
    (hs : s.status ≠ .halted .memoryFault) (ht : t.status = .halted .memoryFault) : i.FaultsIn s := by
  by_contra hf
  rw [exec_of_not_faultsIn hf] at h
  cases h
  exact hs (by simpa using ht)

end Sys2Proof.Machine
end

section
/-! The claims of spec/20_memory.md, each from the lemmas above. -/

namespace Sys2Proof.Proofs

open Sys2Proof.Machine

/-- Settles O18, by the numbers that joined and split words stand for, and by reading back the bytes a store writes. -/
theorem littleEndianWords : Obligations.LittleEndianWords := by
  refine ⟨le32_toNat, littleEndianBytes_toNat, fun s a w h => ?_, fun s t a v h => State.storeWord_readBytes h,
    fun s t h => ?_⟩
  · rw [State.loadWord_some h]
    exact le32_toNat _ _ _ _
  · rw [State.storeWord_readBytes h]
    decide

/-- Settles O20: a canonical memory lists exactly its nonzero bytes, in rising order. -/
theorem canonicalMemoryIsUnique : Obligations.CanonicalMemoryIsUnique :=
  ⟨fun _ _ => Memory.eq_of_read, fun _ a h => Memory.write_read_self h a⟩

/-- Settles O21, by the byte at every address after a word is stored. -/
theorem overlappingWords : Obligations.OverlappingWords := by
  refine ⟨fun m a v => ⟨Memory.readWord_succ_writeWord m a v, fun ha => ?_,
    fun h => Memory.writeBytes_writeBytes h a (littleEndianBytes v)⟩, ?_, ?_⟩
  · obtain ⟨b, rfl⟩ := Nat.exists_eq_add_of_le' ha
    exact Memory.readWord_writeWord_succ m b v
  · rw [Memory.readWord_succ_writeWord]
    decide
  · rw [Memory.readWord_writeWord_succ]
    decide

/-- Settles O26: the three accesses fault at their own address, and an instruction that does not fault keeps the status. -/
theorem memoryFaultIsTheBoundAndChangesNothing : Obligations.MemoryFaultIsTheBoundAndChangesNothing :=
  fun _ => ⟨fun _ _ h => exec_of_faultsIn ⟨_, rfl, h⟩, fun _ _ h => exec_of_faultsIn ⟨_, rfl, h⟩,
    fun _ _ _ h => exec_of_faultsIn ⟨_, rfl, h⟩, fun _ _ => faultsIn_of_exec_memoryFault⟩

/-- Settles O39: the window reads the memory that the instruction's effect left, in which the stored word's bytes stand. -/
theorem storesIntoCodeAreFetched : Obligations.StoresIntoCodeAreFetched := by
  intro s t i n addr v k hstep hd hf hstored hk hpc hsix hlimit
  have hmem : t.mem = s.mem.writeWord addr v := by
    rw [step_eq_effect hstep hd hf, State.checkLimit_mem, effect_mem_of_storedWord_some hstored]
  calc t.window[addr + k - t.pc]? = some (t.mem.read (addr + k)) := State.window_getElem? hpc hsix hlimit
    _ = some ((s.mem.writeWord addr v).read (addr + k)) := by rw [hmem]
    _ = some (littleEndianBytes v)[k] := by rw [Memory.writeWord, Memory.read_writeBytes_add s.mem addr hk]
    _ = (littleEndianBytes v)[k]? := (List.getElem?_eq_getElem hk).symm

end Sys2Proof.Proofs
end

section
/-! Facts about the codec that the claims of spec/30_encoding.md need: what the decoder answers for each opcode whose bytes are all
present, that it answers nothing else, and that no field takes a reserved bit (R58). -/

namespace Sys2Proof

/-! ### The reserved bits of a wire form (R58) -/

/-- Byte0 as a number carries the opcode in its low 7 bits (R51). -/
theorem opcodeByte_toNat_mod (x : BitVec 1) (a : Opcode) : (x ++ a).toNat % 128 = a.toNat := by
  rw [← opcodeOf_toNat, opcodeOf_append]

theorem reservedBitsZero_packL6 (b : RegIndex) (c : Const28) : ReservedBitsZero (packL6 opLoadConst b c) := by
  refine ⟨_, 0#2 ++ c.extractLsb 1 0 ++ 0#4, rfl, rfl, ?_⟩
  rw [opcodeByte_toNat_mod, if_pos (by decide)]
  have hfield := (c.extractLsb 1 0).isLt
  simp only [toNat_append_eq, BitVec.toNat_ofNat]
  omega

theorem reservedBitsZero_packM3 {a : Opcode} (ha : a.toNat ≠ 72 ∧ a.toNat ≠ 91) (b c : RegIndex) :
    ReservedBitsZero (packM3 a b c) := by
  refine ⟨_, 0#3 ++ c.extractLsb 4 0, rfl, rfl, ?_⟩
  rw [opcodeByte_toNat_mod, if_neg ha.1, if_neg ha.2]
  have hfield := (c.extractLsb 4 0).isLt
  simp only [toNat_append_eq, BitVec.toNat_ofNat]
  omega

theorem reservedBitsZero_packN4 (b : Offset) (c d : RegIndex) : ReservedBitsZero (packN4 opNegStore b c d) := by
  refine ⟨_, 0#5 ++ d.extractLsb 2 0, rfl, rfl, ?_⟩
  rw [opcodeByte_toNat_mod, if_neg (by decide), if_pos (by decide)]
  have hfield := (d.extractLsb 2 0).isLt
  simp only [toNat_append_eq, BitVec.toNat_ofNat]
  omega

theorem reservedBitsZero_encode (i : Instr) : ReservedBitsZero (encode i) := by
  cases i with
  | loadConst d v => exact reservedBitsZero_packL6 d v
  | memRead d a => exact reservedBitsZero_packM3 (by decide) d a
  | memWrite r a => exact reservedBitsZero_packM3 (by decide) r a
  | negStore o b r => exact reservedBitsZero_packN4 o b r

/-! ### The decoder, opcode by opcode (R93, R94, R95) -/

section
variable {w0 : Byte} (w1 w2 w3 w4 w5 : Byte) (rest : List Byte)

theorem decode_loadConst (h : opcodeOf w0 = opLoadConst) : decode (w0 :: w1 :: w2 :: w3 :: w4 :: w5 :: rest) =
    .ok (.loadConst (unpackL6 w0 w1 w2 w3 w4 w5).1 (unpackL6 w0 w1 w2 w3 w4 w5).2, 6) := by
  simp [decode, h, readLoadConst, orTruncated]

theorem decode_memRead (h : opcodeOf w0 = opMemRead) : decode (w0 :: w1 :: w2 :: rest) =
    .ok (.memRead (unpackM3 w0 w1 w2).1 (unpackM3 w0 w1 w2).2, 3) := by
  simp [decode, h, readMemRead, orTruncated, opLoadConst, opMemRead]

theorem decode_memWrite (h : opcodeOf w0 = opMemWrite) : decode (w0 :: w1 :: w2 :: rest) =
    .ok (.memWrite (unpackM3 w0 w1 w2).1 (unpackM3 w0 w1 w2).2, 3) := by
  simp [decode, h, readMemWrite, orTruncated, opLoadConst, opMemRead, opMemWrite]

theorem decode_negStore (h : opcodeOf w0 = opNegStore) : decode (w0 :: w1 :: w2 :: w3 :: rest) =
    .ok (.negStore (unpackN4 w0 w1 w2 w3).1 (unpackN4 w0 w1 w2 w3).2.1 (unpackN4 w0 w1 w2 w3).2.2, 4) := by
  simp [decode, h, readNegStore, orTruncated, opLoadConst, opMemRead, opMemWrite, opNegStore]

end

/-- A window that decodes begins with a recognised opcode and has the bytes of its size; `decode_loadConst` to `decode_negStore`
say what it decodes to. -/
theorem decode_ok_cases {w : List Byte} {p : Instr × Nat} (h : decode w = .ok p) :
    (∃ w0 w1 w2 w3 w4 w5 rest, w = w0 :: w1 :: w2 :: w3 :: w4 :: w5 :: rest ∧ opcodeOf w0 = opLoadConst) ∨
    (∃ w0 w1 w2 rest, w = w0 :: w1 :: w2 :: rest ∧ (opcodeOf w0 = opMemRead ∨ opcodeOf w0 = opMemWrite)) ∨
    (∃ w0 w1 w2 w3 rest, w = w0 :: w1 :: w2 :: w3 :: rest ∧ opcodeOf w0 = opNegStore) := by
  match w, h with
  | w0 :: rest, h =>
    simp only [decode] at h
    split at h
    · rename_i hop
      match rest, h with
      | w1 :: w2 :: w3 :: w4 :: w5 :: rest, _ => exact .inl ⟨w0, w1, w2, w3, w4, w5, rest, rfl, hop⟩
    · split at h
      · rename_i hop
        match rest, h with
        | w1 :: w2 :: rest, _ => exact .inr (.inl ⟨w0, w1, w2, rest, rfl, .inl hop⟩)
      · split at h
        · rename_i hop
          match rest, h with
          | w1 :: w2 :: rest, _ => exact .inr (.inl ⟨w0, w1, w2, rest, rfl, .inr hop⟩)
        · split at h
          · rename_i hop
            match rest, h with
            | w1 :: w2 :: w3 :: rest, _ => exact .inr (.inr ⟨w0, w1, w2, w3, rest, rfl, hop⟩)
          · cases h

/-! ### No field takes a reserved bit (R58) -/

/-- A bit field of a masked byte is that of the byte, where the mask has a 1 at each of the field's bits. -/
theorem extractLsb_and_of_mask {n hi lo : Nat} {v m : BitVec n} (hm : m.extractLsb hi lo = BitVec.allOnes _) :
    (v &&& m).extractLsb hi lo = v.extractLsb hi lo := by
  rw [BitVec.extractLsb_and, hm, BitVec.and_allOnes]

section
variable (w0 w1 w2 w3 w4 w5 : Byte)

theorem unpackL6_clearReserved : unpackL6 w0 w1 w2 w3 w4 (w5 &&& lastByteFieldMask opLoadConst) =
    unpackL6 w0 w1 w2 w3 w4 w5 := by
  rw [unpackL6, extractLsb_and_of_mask (by decide), unpackL6]

theorem unpackM3_clearReserved {a : Opcode} (ha : a = opMemRead ∨ a = opMemWrite) :
    unpackM3 w0 w1 (w2 &&& lastByteFieldMask a) = unpackM3 w0 w1 w2 := by
  rw [unpackM3, extractLsb_and_of_mask (by rcases ha with rfl | rfl <;> decide), unpackM3]

theorem unpackN4_clearReserved : unpackN4 w0 w1 w2 (w3 &&& lastByteFieldMask opNegStore) = unpackN4 w0 w1 w2 w3 := by
  rw [unpackN4, extractLsb_and_of_mask (by decide), unpackN4]

end

/-- The decoder answers the same when the reserved bits of the instruction's own bytes are cleared. -/
theorem decode_clearReserved {w : List Byte} {i : Instr} {n : Nat} (h : decode w = .ok (i, n)) :
    decode (clearReserved (w.take n) ++ w.drop n) = .ok (i, n) := by
  obtain ⟨w0, w1, w2, w3, w4, w5, rest, rfl, hop⟩ | ⟨w0, w1, w2, rest, rfl, hop | hop⟩ |
    ⟨w0, w1, w2, w3, rest, rfl, hop⟩ := decode_ok_cases h
  · rw [decode_loadConst _ _ _ _ _ _ hop] at h
    cases h
    simp [clearReserved, hop, decode_loadConst, unpackL6_clearReserved]
  · rw [decode_memRead _ _ _ hop] at h
    cases h
    simp [clearReserved, hop, decode_memRead, unpackM3_clearReserved]
  · rw [decode_memWrite _ _ _ hop] at h
    cases h
    simp [clearReserved, hop, decode_memWrite, unpackM3_clearReserved]
  · rw [decode_negStore _ _ _ _ hop] at h
    cases h
    simp [clearReserved, hop, decode_negStore, unpackN4_clearReserved]

end Sys2Proof
end

section
/-! The claims of spec/30_encoding.md, each from the lemmas above. -/

namespace Sys2Proof.Proofs

open Sys2Proof.Machine

/-- Settles O13: no field takes a bit that clearing touches, and a step executes what its window decodes to. -/
theorem reservedBitsWrittenZeroAndIgnored : Obligations.ReservedBitsWrittenZeroAndIgnored := by
  refine ⟨reservedBitsZero_encode, fun _ _ _ h => decode_clearReserved h, ?_⟩
  intro s t i n hsInv htInv hs ht hd hwindow
  have hdt : decode t.window = .ok (i, n) := by rw [hwindow, decode_clearReserved hd]
  exact ⟨step_decode_ok hs hsInv.fetchInside hd, step_decode_ok ht htInv.fetchInside hdt⟩

end Sys2Proof.Proofs
end

section
/-! Facts about the decoder that the claims of spec/40_codec.md need: its fields and the encoder's bytes as numbers, packing and
unpacking as inverses up to reserved bits, and which of its answers it gives for which window. -/

namespace Sys2Proof

/-! ### Bytes and fields as numbers (R85 to R87, R93 to R95) -/

/-- The six bytes of layout L6 as numbers (R85). -/
theorem packL6_toNat (a : Opcode) (b : RegIndex) (c : Const28) : (packL6 a b c).map BitVec.toNat =
    [b.toNat / 64 * 128 + a.toNat, c.toNat / 2 ^ 26 * 64 + b.toNat % 64, c.toNat / 2 ^ 18 % 256, c.toNat / 2 ^ 10 % 256,
     c.toNat / 4 % 256, c.toNat % 4 * 16] := by
  have hb := b.isLt
  have hc := c.isLt
  simp only [packL6, List.map_cons, List.map_nil, toNat_append_eq, toNat_extractLsb_eq, BitVec.toNat_ofNat,
    List.cons.injEq, and_true]
  omega

/-- The three bytes of layout M3 as numbers (R86). -/
theorem packM3_toNat (a : Opcode) (b c : RegIndex) : (packM3 a b c).map BitVec.toNat =
    [b.toNat / 64 * 128 + a.toNat, c.toNat / 32 * 64 + b.toNat % 64, c.toNat % 32] := by
  have hb := b.isLt
  have hc := c.isLt
  simp only [packM3, List.map_cons, List.map_nil, toNat_append_eq, toNat_extractLsb_eq, BitVec.toNat_ofNat,
    List.cons.injEq, and_true]
  omega

/-- The four bytes of layout N4 as numbers (R87). -/
theorem packN4_toNat (a : Opcode) (b : Offset) (c d : RegIndex) : (packN4 a b c d).map BitVec.toNat =
    [b.toNat / 32 * 128 + a.toNat, c.toNat / 16 * 32 + b.toNat % 32, d.toNat / 8 * 16 + c.toNat % 16, d.toNat % 8] := by
  have hb := b.isLt
  have hc := c.isLt
  have hd := d.isLt
  simp only [packN4, List.map_cons, List.map_nil, toNat_append_eq, toNat_extractLsb_eq, BitVec.toNat_ofNat,
    List.cons.injEq, and_true]
  omega

/-- The two fields of layout L6 as numbers (R93). -/
theorem unpackL6_toNat (w0 w1 w2 w3 w4 w5 : Byte) :
    (unpackL6 w0 w1 w2 w3 w4 w5).1.toNat = w0.toNat / 128 * 64 + w1.toNat % 64 ∧
    (unpackL6 w0 w1 w2 w3 w4 w5).2.toNat =
      w1.toNat / 64 * 2 ^ 26 + w2.toNat * 2 ^ 18 + w3.toNat * 2 ^ 10 + w4.toNat * 4 + w5.toNat / 16 % 4 := by
  have h0 := w0.isLt
  have h1 := w1.isLt
  simp only [unpackL6, toNat_append_eq, toNat_extractLsb_eq]
  omega

/-- The two fields of layout M3 as numbers (R94). -/
theorem unpackM3_toNat (w0 w1 w2 : Byte) :
    (unpackM3 w0 w1 w2).1.toNat = w0.toNat / 128 * 64 + w1.toNat % 64 ∧
    (unpackM3 w0 w1 w2).2.toNat = w1.toNat / 64 * 32 + w2.toNat % 32 := by
  have h0 := w0.isLt
  have h1 := w1.isLt
  simp only [unpackM3, toNat_append_eq, toNat_extractLsb_eq]
  omega

/-- The three fields of layout N4 as numbers (R95). -/
theorem unpackN4_toNat (w0 w1 w2 w3 : Byte) :
    (unpackN4 w0 w1 w2 w3).1.toNat = w0.toNat / 128 * 32 + w1.toNat % 32 ∧
    (unpackN4 w0 w1 w2 w3).2.1.toNat = w1.toNat / 32 * 16 + w2.toNat % 16 ∧
    (unpackN4 w0 w1 w2 w3).2.2.toNat = w2.toNat / 16 * 8 + w3.toNat % 8 := by
  have h0 := w0.isLt
  have h1 := w1.isLt
  have h2 := w2.isLt
  simp only [unpackN4, toNat_append_eq, toNat_extractLsb_eq]
  omega

/-! ### Clearing reserved bits, on numbers (R58) -/

/-- The last byte with its reserved bits cleared, as a number: what is left is the field. -/
theorem and_lastByteFieldMask_toNat (a : Opcode) (wl : Byte) : (wl &&& lastByteFieldMask a).toNat =
    if a.toNat = 72 then wl.toNat / 16 % 4 * 16 else if a.toNat = 91 then wl.toNat % 8 else wl.toNat % 32 := by
  obtain ⟨hL6, hN4, hM3⟩ : (wl &&& 0x30#8).toNat = wl.toNat / 16 % 4 * 16 ∧ (wl &&& 0x07#8).toNat = wl.toNat % 8 ∧
      (wl &&& 0x1F#8).toNat = wl.toNat % 32 := by
    revert wl
    decide
  have h72 : a = opLoadConst ↔ a.toNat = 72 := BitVec.toNat_inj.symm
  have h91 : a = opNegStore ↔ a.toNat = 91 := BitVec.toNat_inj.symm
  simp only [lastByteFieldMask, h72, h91]
  split
  · exact hL6
  · split
    · exact hN4
    · exact hM3

/-- Clearing reserved bits that are 0 changes nothing. -/
theorem clearReserved_of_reservedBitsZero {w : List Byte} (h : ReservedBitsZero w) : clearReserved w = w := by
  obtain ⟨w0, wl, h0, hl, hzero⟩ := h
  have hmask : wl &&& lastByteFieldMask (opcodeOf w0) = wl := by
    apply BitVec.eq_of_toNat_eq
    rw [and_lastByteFieldMask_toNat, opcodeOf_toNat]
    have hwl := wl.isLt
    split_ifs at hzero ⊢ <;> omega
  simp only [clearReserved, h0, hl, hmask]
  exact List.dropLast_append_getLast? wl hl

/-! ### Packing what was unpacked, and unpacking what was packed (R97, R98) -/

/-- Two byte strings of the same numbers are the same. -/
theorem bytes_eq_of_toNat {w v : List Byte} (h : w.map BitVec.toNat = v.map BitVec.toNat) : w = v :=
  List.map_injective_iff.mpr (fun _ _ => BitVec.eq_of_toNat_eq) h

section
variable {w0 : Byte} (w1 w2 w3 w4 w5 : Byte)

theorem packL6_unpackL6 (h : opcodeOf w0 = opLoadConst) :
    packL6 opLoadConst (unpackL6 w0 w1 w2 w3 w4 w5).1 (unpackL6 w0 w1 w2 w3 w4 w5).2 =
      [w0, w1, w2, w3, w4, w5 &&& lastByteFieldMask opLoadConst] := by
  have hop : opLoadConst.toNat = w0.toNat % 128 := by rw [← h, opcodeOf_toNat]
  have hmask := and_lastByteFieldMask_toNat opLoadConst w5
  rw [if_pos (by decide)] at hmask
  obtain ⟨hb, hc⟩ := unpackL6_toNat w0 w1 w2 w3 w4 w5
  apply bytes_eq_of_toNat
  simp only [packL6_toNat, hb, hc, hop, hmask, List.map_cons, List.map_nil, List.cons.injEq, and_true]
  bv_omega

theorem packM3_unpackM3 {a : Opcode} (h : opcodeOf w0 = a) (ha : a.toNat ≠ 72 ∧ a.toNat ≠ 91) :
    packM3 a (unpackM3 w0 w1 w2).1 (unpackM3 w0 w1 w2).2 = [w0, w1, w2 &&& lastByteFieldMask a] := by
  have hop : a.toNat = w0.toNat % 128 := by rw [← h, opcodeOf_toNat]
  have hmask := and_lastByteFieldMask_toNat a w2
  rw [if_neg ha.1, if_neg ha.2] at hmask
  obtain ⟨hb, hc⟩ := unpackM3_toNat w0 w1 w2
  apply bytes_eq_of_toNat
  simp only [packM3_toNat, hb, hc, hop, hmask, List.map_cons, List.map_nil, List.cons.injEq, and_true]
  bv_omega

theorem packN4_unpackN4 (h : opcodeOf w0 = opNegStore) :
    packN4 opNegStore (unpackN4 w0 w1 w2 w3).1 (unpackN4 w0 w1 w2 w3).2.1 (unpackN4 w0 w1 w2 w3).2.2 =
      [w0, w1, w2, w3 &&& lastByteFieldMask opNegStore] := by
  have hop : opNegStore.toNat = w0.toNat % 128 := by rw [← h, opcodeOf_toNat]
  have hmask := and_lastByteFieldMask_toNat opNegStore w3
  rw [if_neg (by decide), if_pos (by decide)] at hmask
  obtain ⟨hb, hc, hd⟩ := unpackN4_toNat w0 w1 w2 w3
  apply bytes_eq_of_toNat
  simp only [packN4_toNat, hb, hc, hd, hop, hmask, List.map_cons, List.map_nil, List.cons.injEq, and_true]
  bv_omega

end

section
variable {w0 w1 w2 w3 w4 w5 : Byte} {a : Opcode}

theorem unpackL6_packL6 {b : RegIndex} {c : Const28} (h : packL6 a b c = [w0, w1, w2, w3, w4, w5]) :
    unpackL6 w0 w1 w2 w3 w4 w5 = (b, c) := by
  have hn := packL6_toNat a b c
  simp only [h, List.map_cons, List.map_nil, List.cons.injEq, and_true] at hn
  obtain ⟨hb, hc⟩ := unpackL6_toNat w0 w1 w2 w3 w4 w5
  apply Prod.ext <;> bv_omega

theorem unpackM3_packM3 {b c : RegIndex} (h : packM3 a b c = [w0, w1, w2]) : unpackM3 w0 w1 w2 = (b, c) := by
  have hn := packM3_toNat a b c
  simp only [h, List.map_cons, List.map_nil, List.cons.injEq, and_true] at hn
  obtain ⟨hb, hc⟩ := unpackM3_toNat w0 w1 w2
  apply Prod.ext <;> bv_omega

theorem unpackN4_packN4 {b : Offset} {c d : RegIndex} (h : packN4 a b c d = [w0, w1, w2, w3]) :
    unpackN4 w0 w1 w2 w3 = (b, c, d) := by
  have hn := packN4_toNat a b c d
  simp only [h, List.map_cons, List.map_nil, List.cons.injEq, and_true] at hn
  obtain ⟨hb, hc, hd⟩ := unpackN4_toNat w0 w1 w2 w3
  refine Prod.ext ?_ (Prod.ext ?_ ?_) <;> bv_omega

end

/-- Every instruction comes back from its wire form, whatever follows (R97). -/
theorem decode_encode_append (i : Instr) (rest : List Byte) : decode (encode i ++ rest) = .ok (i, (encode i).length) := by
  cases i with
  | loadConst d v =>
    refine (decode_loadConst _ _ _ _ _ rest (opcodeOf_append _ _)).trans ?_
    rw [unpackL6_packL6 (a := opLoadConst) rfl]
    rfl
  | memRead d a =>
    refine (decode_memRead _ _ rest (opcodeOf_append _ _)).trans ?_
    rw [unpackM3_packM3 (a := opMemRead) rfl]
    rfl
  | memWrite r a =>
    refine (decode_memWrite _ _ rest (opcodeOf_append _ _)).trans ?_
    rw [unpackM3_packM3 (a := opMemWrite) rfl]
    rfl
  | negStore o b r =>
    refine (decode_negStore _ _ _ rest (opcodeOf_append _ _)).trans ?_
    rw [unpackN4_packN4 (a := opNegStore) rfl]
    rfl

theorem decode_encode (i : Instr) : decode (encode i) = .ok (i, (encode i).length) := by
  simpa using decode_encode_append i []

/-- What was decoded is encoded as its own bytes with the reserved bits cleared (R98). -/
theorem encode_of_decode {w : List Byte} {i : Instr} {n : Nat} (h : decode w = .ok (i, n)) :
    encode i = clearReserved (w.take n) := by
  obtain ⟨w0, w1, w2, w3, w4, w5, rest, rfl, hop⟩ | ⟨w0, w1, w2, rest, rfl, hop | hop⟩ |
    ⟨w0, w1, w2, w3, rest, rfl, hop⟩ := decode_ok_cases h
  · rw [decode_loadConst _ _ _ _ _ _ hop] at h
    cases h
    simp [encode, packL6_unpackL6, clearReserved, hop]
  · rw [decode_memRead _ _ _ hop] at h
    cases h
    simp [encode, packM3_unpackM3 _ _ hop (by decide), clearReserved, hop]
  · rw [decode_memWrite _ _ _ hop] at h
    cases h
    simp [encode, packM3_unpackM3 _ _ hop (by decide), clearReserved, hop]
  · rw [decode_negStore _ _ _ _ hop] at h
    cases h
    simp [encode, packN4_unpackN4, clearReserved, hop]

/-- A decoded instruction is encoded as its own bytes exactly where their reserved bits are 0 (R98). -/
theorem encode_of_decode_eq_iff {w : List Byte} {i : Instr} {n : Nat} (h : decode w = .ok (i, n)) :
    encode i = w.take n ↔ ReservedBitsZero (w.take n) :=
  ⟨fun he => he ▸ reservedBitsZero_encode i,
    fun hzero => (encode_of_decode h).trans (clearReserved_of_reservedBitsZero hzero)⟩

/-! ### The decoder's three answers (R90 to R92) -/

theorem opcodeOf_eq_iff (w0 : Byte) (a : Opcode) : opcodeOf w0 = a ↔ w0.toNat % 128 = a.toNat := by
  rw [← opcodeOf_toNat, BitVec.toNat_inj]

section
variable (w0 : Byte) (rest : List Byte)

theorem readLoadConst_eq_none_iff : readLoadConst w0 rest = none ↔ (w0 :: rest).length < 6 := by
  match rest with
  | [] | [_] | [_, _] | [_, _, _] | [_, _, _, _] | _ :: _ :: _ :: _ :: _ :: _ => simp [readLoadConst]

theorem readMemRead_eq_none_iff : readMemRead w0 rest = none ↔ (w0 :: rest).length < 3 := by
  match rest with
  | [] | [_] | _ :: _ :: _ => simp [readMemRead]

theorem readMemWrite_eq_none_iff : readMemWrite w0 rest = none ↔ (w0 :: rest).length < 3 := by
  match rest with
  | [] | [_] | _ :: _ :: _ => simp [readMemWrite]

theorem readNegStore_eq_none_iff : readNegStore w0 rest = none ↔ (w0 :: rest).length < 4 := by
  match rest with
  | [] | [_] | [_, _] | _ :: _ :: _ :: _ => simp [readNegStore]

end

/-- An unrecognised opcode is UnknownOpcode (R91). -/
theorem decode_of_not_recognised {w0 : Byte} (rest : List Byte) (h : ¬ RecognisedOpcode (w0.toNat % 128)) :
    decode (w0 :: rest) = .error .unknownOpcode := by
  simp only [RecognisedOpcode, not_or] at h
  obtain ⟨h72, h113, h8, h91⟩ := h
  simp [decode, opcodeOf_eq_iff, opLoadConst, opMemRead, opMemWrite, opNegStore, h72, h113, h8, h91]

/-- With a recognised opcode the decoder reads the fields of its shape, which it can exactly where the window has the bytes of its
size (R92). -/
theorem decode_of_recognised {w0 : Byte} (rest : List Byte) (h : RecognisedOpcode (w0.toNat % 128)) :
    ∃ o, decode (w0 :: rest) = orTruncated (sizeOfOpcode (w0.toNat % 128)) o ∧
      (o = none ↔ (w0 :: rest).length < sizeOfOpcode (w0.toNat % 128)) := by
  simp only [decode, opcodeOf_eq_iff]
  rcases h with h | h | h | h <;> rw [h]
  · exact ⟨_, rfl, readLoadConst_eq_none_iff w0 rest⟩
  · exact ⟨_, rfl, readMemRead_eq_none_iff w0 rest⟩
  · exact ⟨_, rfl, readMemWrite_eq_none_iff w0 rest⟩
  · exact ⟨_, rfl, readNegStore_eq_none_iff w0 rest⟩

theorem orTruncated_eq_truncated_iff {n : Nat} {o : Option Instr} :
    orTruncated n o = .error .truncatedInstruction ↔ o = none := by
  cases o <;> simp [orTruncated]

theorem orTruncated_ne_unknownOpcode (n : Nat) (o : Option Instr) : orTruncated n o ≠ .error .unknownOpcode := by
  cases o <;> simp [orTruncated]

theorem decode_unknownOpcode_iff (w0 : Byte) (rest : List Byte) :
    decode (w0 :: rest) = .error .unknownOpcode ↔ ¬ RecognisedOpcode (w0.toNat % 128) := by
  refine ⟨fun hd h => ?_, decode_of_not_recognised rest⟩
  obtain ⟨o, ho, -⟩ := decode_of_recognised rest h
  exact orTruncated_ne_unknownOpcode _ o (ho.symm.trans hd)

theorem decode_truncated_iff (w0 : Byte) (rest : List Byte) : decode (w0 :: rest) = .error .truncatedInstruction ↔
    RecognisedOpcode (w0.toNat % 128) ∧ (w0 :: rest).length < sizeOfOpcode (w0.toNat % 128) := by
  by_cases h : RecognisedOpcode (w0.toNat % 128)
  · obtain ⟨o, ho, hnone⟩ := decode_of_recognised rest h
    rw [ho, orTruncated_eq_truncated_iff, hnone, and_iff_right h]
  · simp [decode_of_not_recognised rest h, h]

/-- A recognised opcode with the bytes of its size decodes to an instruction of that size. -/
theorem decode_ok_of_recognised {w0 : Byte} {rest : List Byte} (h : RecognisedOpcode (w0.toNat % 128))
    (hlen : sizeOfOpcode (w0.toNat % 128) ≤ (w0 :: rest).length) :
    ∃ i, decode (w0 :: rest) = .ok (i, sizeOfOpcode (w0.toNat % 128)) := by
  obtain ⟨o, ho, hnone⟩ := decode_of_recognised rest h
  cases o with
  | none => exact absurd (hnone.mp rfl) (Nat.not_lt.mpr hlen)
  | some i => exact ⟨i, ho⟩

/-! ### The encoder's image (R98) -/

/-- A wire form starts with its instruction's opcode (R51). -/
theorem encode_eq_cons (i : Instr) : ∃ w0 rest, encode i = w0 :: rest ∧ w0.toNat % 128 = i.opcode.toNat := by
  cases i <;> exact ⟨_, _, rfl, opcodeByte_toNat_mod _ _⟩

theorem recognisedOpcode_opcode (i : Instr) : RecognisedOpcode i.opcode.toNat := by
  cases i with
  | loadConst d v => exact .inl rfl
  | memRead d a => exact .inr (.inl rfl)
  | memWrite r a => exact .inr (.inr (.inl rfl))
  | negStore o b r => exact .inr (.inr (.inr rfl))

theorem sizeOfOpcode_opcode (i : Instr) : sizeOfOpcode i.opcode.toNat = i.size := by
  cases i <;> rfl

/-- The wire forms the encoder gives are those of a recognised opcode, of its size, with zero reserved bits. -/
theorem exists_encode_eq_iff (w : List Byte) : (∃ i, encode i = w) ↔
    ∃ w0 rest, w = w0 :: rest ∧ RecognisedOpcode (w0.toNat % 128) ∧ w.length = sizeOfOpcode (w0.toNat % 128) ∧
      ReservedBitsZero w := by
  constructor
  · rintro ⟨i, rfl⟩
    obtain ⟨w0, rest, hw, hop⟩ := encode_eq_cons i
    refine ⟨w0, rest, hw, ?_, ?_, reservedBitsZero_encode i⟩
    · rw [hop]; exact recognisedOpcode_opcode i
    · rw [hop, sizeOfOpcode_opcode, encode_length]
  · rintro ⟨w0, rest, rfl, hop, hlen, hzero⟩
    obtain ⟨i, hd⟩ := decode_ok_of_recognised hop hlen.ge
    rw [← hlen] at hd
    have himage := encode_of_decode_eq_iff hd
    rw [List.take_length] at himage
    exact ⟨i, himage.mpr hzero⟩

/-! ### Six bytes are enough (R89, R96) -/

/-- The decoder looks no further than six bytes. -/
theorem decode_take_six (w : List Byte) : decode (w.take 6) = decode w := by
  match w with
  | [] | [_] | [_, _] | [_, _, _] | [_, _, _, _] | [_, _, _, _, _] | _ :: _ :: _ :: _ :: _ :: _ :: _ => rfl

end Sys2Proof

namespace Sys2Proof.Machine

theorem Memory.take_readBytes (m : Memory) (a n k : Nat) : (m.readBytes a n).take k = m.readBytes a (min k n) := by
  refine List.ext_getElem (by simp) fun j _ _ => ?_
  rw [List.getElem_take, Memory.readBytes_getElem, Memory.readBytes_getElem]

/-- The model's window is the first six of the bytes that remain (R101). -/
theorem State.window_eq_take (s : State) : s.window = (s.mem.readBytes s.pc (s.fetchLimit - s.pc)).take 6 :=
  (Memory.take_readBytes _ _ _ _).symm

end Sys2Proof.Machine
end

section
/-! Facts about the encoder that the claims of spec/40_codec.md need: what it answers for each opcode, which field values it takes
unchanged, and what becomes of them on 32-bit ports. -/

namespace Sys2Proof

/-! ### Field values (R83, R84) -/

theorem fitsWidth_iff (n : Nat) (v : Int) : fitsWidth n v = true ↔ 0 ≤ v ∧ v < 2 ^ n := by
  simp [fitsWidth]

theorem ConstPolicy.admits_iff (p : ConstPolicy) (c : Int) :
    p.admits c = true ↔ (p = .reject → 0 ≤ c ∧ c < 268435456) := by
  cases p with
  | reject => simp [ConstPolicy.admits, fitsWidth_iff]
  | truncate => simp [ConstPolicy.admits]

/-- An integer in a field is its residue (R84, decision D24, log 14). -/
theorem toNat_ofInt_eq_emod (n : Nat) (v : Int) : ((BitVec.ofInt n v).toNat : Int) = v % 2 ^ n := by
  rw [BitVec.toNat_ofInt, Int.toNat_of_nonneg (Int.emod_nonneg _ (by positivity))]
  simp

/-- An integer that fits a field stands in it unchanged (R83). -/
theorem toNat_ofInt_of_fits {n : Nat} {v : Int} (h : 0 ≤ v ∧ v < 2 ^ n) : ((BitVec.ofInt n v).toNat : Int) = v := by
  rw [toNat_ofInt_eq_emod, Int.emod_eq_of_lt h.1 h.2]

/-! ### The encoder, opcode by opcode (R82 to R84) -/

theorem FieldCall.isOp_iff (f : FieldCall) (op : Opcode) : f.isOp op = true ↔ f.opcode = op.toNat := by
  simp [FieldCall.isOp]

/-- Once the opcode is known, the encoder gives the wire form or refuses a field. -/
theorem encodeFields_of_check {p : ConstPolicy} {f : FieldCall} {i : Instr} {P : Prop} [Decidable P]
    (hi : f.toInstr = i) (hcheck : f.check p = if P then .ok () else .error .fieldOutOfRange) :
    encodeFields p f = if P then .ok (encode i) else .error .fieldOutOfRange := by
  rw [encodeFields, hcheck, hi]
  by_cases h : P <;> simp [h]

/-- The bytes of a call that passes are as many as its instruction's size (R50). -/
theorem length_of_encodeFields_eq_ite {p : ConstPolicy} {f : FieldCall} {i : Instr} {P : Prop} [Decidable P]
    (h : encodeFields p f = if P then .ok (encode i) else .error .fieldOutOfRange) :
    if P then ∃ w, encodeFields p f = .ok w ∧ w.length = i.size else encodeFields p f = .error .fieldOutOfRange := by
  rw [h]
  split
  · exact ⟨_, rfl, encode_length i⟩
  · rfl

section
variable (p : ConstPolicy) {f : FieldCall}

theorem encodeFields_of_unknown (h : ¬ (f.opcode = 72 ∨ f.opcode = 113 ∨ f.opcode = 8 ∨ f.opcode = 91)) :
    encodeFields p f = .error .unknownOpcode := by
  simp only [not_or] at h
  obtain ⟨h72, h113, h8, h91⟩ := h
  simp [encodeFields, FieldCall.check, FieldCall.isOp_iff, opLoadConst, opMemRead, opMemWrite, opNegStore, h72, h113, h8, h91]

theorem encodeFields_loadConst (h : f.opcode = 72) : encodeFields p f =
    if (0 ≤ f.b ∧ f.b < 128) ∧ (p = .reject → 0 ≤ f.c ∧ f.c < 268435456)
      then .ok (encode (.loadConst (BitVec.ofInt 7 f.b) (BitVec.ofInt 28 f.c))) else .error .fieldOutOfRange := by
  apply encodeFields_of_check
  · simp [FieldCall.toInstr, FieldCall.isOp_iff, opLoadConst, h]
  · simp [FieldCall.check, FieldCall.isOp_iff, opLoadConst, h, fitsWidth_iff, ConstPolicy.admits_iff]

theorem encodeFields_memRead (h : f.opcode = 113) : encodeFields p f =
    if (0 ≤ f.b ∧ f.b < 128) ∧ (0 ≤ f.c ∧ f.c < 128)
      then .ok (encode (.memRead (BitVec.ofInt 7 f.b) (BitVec.ofInt 7 f.c))) else .error .fieldOutOfRange := by
  apply encodeFields_of_check
  · simp [FieldCall.toInstr, FieldCall.isOp_iff, opLoadConst, opMemRead, h]
  · simp [FieldCall.check, FieldCall.isOp_iff, opLoadConst, opMemRead, h, fitsWidth_iff]

theorem encodeFields_memWrite (h : f.opcode = 8) : encodeFields p f =
    if (0 ≤ f.b ∧ f.b < 128) ∧ (0 ≤ f.c ∧ f.c < 128)
      then .ok (encode (.memWrite (BitVec.ofInt 7 f.b) (BitVec.ofInt 7 f.c))) else .error .fieldOutOfRange := by
  apply encodeFields_of_check
  · simp [FieldCall.toInstr, FieldCall.isOp_iff, opLoadConst, opMemRead, opMemWrite, h]
  · simp [FieldCall.check, FieldCall.isOp_iff, opLoadConst, opMemRead, opMemWrite, h, fitsWidth_iff]

theorem encodeFields_negStore (h : f.opcode = 91) : encodeFields p f =
    if (0 ≤ f.b ∧ f.b < 64) ∧ (0 ≤ f.c ∧ f.c < 128) ∧ (0 ≤ f.d ∧ f.d < 128)
      then .ok (encode (.negStore (BitVec.ofInt 6 f.b) (BitVec.ofInt 7 f.c) (BitVec.ofInt 7 f.d)))
      else .error .fieldOutOfRange := by
  apply encodeFields_of_check
  · simp [FieldCall.toInstr, FieldCall.isOp_iff, opLoadConst, opMemRead, opMemWrite, h]
  · simp [FieldCall.check, FieldCall.isOp_iff, opLoadConst, opMemRead, opMemWrite, opNegStore, h, fitsWidth_iff, and_assoc]

end

/-! ### The instruction of an accepted call (R84, R97) -/

/-- Bytes come out only where the check before them passed. -/
theorem of_ite_eq_ok {P : Prop} [Decidable P] {w v : List Byte} {e : EncodeError}
    (h : (if P then Except.ok w else .error e) = .ok v) : P ∧ v = w := by
  split at h
  · rename_i hP
    cases h
    exact ⟨hP, rfl⟩
  · cases h

/-- The instruction the encoder's bytes stand for carries the call's own numbers, the LoadConst constant under `truncate` as its
residue. -/
theorem exists_instr_of_encodeFields {p : ConstPolicy} {f : FieldCall} {w : List Byte} (h : encodeFields p f = .ok w) :
    ∃ i : Instr, w = encode i ∧ i.toCall = { f with
      c := if p = .truncate ∧ f.opcode = 72 then f.c % 268435456 else f.c
      d := if f.opcode = 91 then f.d else 0 } := by
  by_cases hop : f.opcode = 72 ∨ f.opcode = 113 ∨ f.opcode = 8 ∨ f.opcode = 91
  · rcases hop with hop | hop | hop | hop
    · obtain ⟨⟨hb, hc⟩, rfl⟩ := of_ite_eq_ok (encodeFields_loadConst p hop ▸ h)
      refine ⟨_, rfl, (FieldCall.mk.injEq ..).mpr ⟨hop.symm, toNat_ofInt_of_fits hb, ?_, by simp [hop]⟩⟩
      cases p with
      | reject => simpa using toNat_ofInt_of_fits (n := 28) (hc rfl)
      | truncate => simpa [hop] using toNat_ofInt_eq_emod 28 f.c
    · obtain ⟨⟨hb, hc⟩, rfl⟩ := of_ite_eq_ok (encodeFields_memRead p hop ▸ h)
      refine ⟨_, rfl, (FieldCall.mk.injEq ..).mpr ⟨hop.symm, toNat_ofInt_of_fits hb, ?_, by simp [hop]⟩⟩
      simpa [hop] using toNat_ofInt_of_fits (n := 7) hc
    · obtain ⟨⟨hb, hc⟩, rfl⟩ := of_ite_eq_ok (encodeFields_memWrite p hop ▸ h)
      refine ⟨_, rfl, (FieldCall.mk.injEq ..).mpr ⟨hop.symm, toNat_ofInt_of_fits hb, ?_, by simp [hop]⟩⟩
      simpa [hop] using toNat_ofInt_of_fits (n := 7) hc
    · obtain ⟨⟨hb, hc, hd⟩, rfl⟩ := of_ite_eq_ok (encodeFields_negStore p hop ▸ h)
      refine ⟨_, rfl, (FieldCall.mk.injEq ..).mpr ⟨hop.symm, toNat_ofInt_of_fits hb, ?_, ?_⟩⟩
      · simpa [hop] using toNat_ofInt_of_fits (n := 7) hc
      · simpa [hop] using toNat_ofInt_of_fits (n := 7) hd
  · rw [encodeFields_of_unknown p hop] at h
    cases h

/-! ### 32-bit ports (R82, decision D15, log 14) -/

/-- The number on a 32-bit port is the integer's residue, which has the same low bits. -/
theorem ofInt_port {n : Nat} (hn : n ≤ 32) (v : Int) : BitVec.ofInt n ((BitVec.ofInt 32 v).toNat : Int) = BitVec.ofInt n v := by
  apply BitVec.eq_of_toNat_eq
  have h := Int.emod_emod_of_dvd v (pow_dvd_pow (2 : Int) hn)
  rw [← toNat_ofInt_eq_emod 32, ← toNat_ofInt_eq_emod n, ← toNat_ofInt_eq_emod n] at h
  exact Int.ofNat_inj.mp h

/-- The integers R82's port rule speaks of: -2^31 up to 2^32 - 1. -/
abbrev PortRange (v : Int) : Prop := -2 ^ 31 ≤ v ∧ v < 2 ^ 32

/-- A call as the 32-bit ports show it. -/
def FieldCall.onPorts (f : FieldCall) : FieldCall :=
  ⟨(BitVec.ofInt 32 f.opcode).toNat, (BitVec.ofInt 32 f.b).toNat, (BitVec.ofInt 32 f.c).toNat, (BitVec.ofInt 32 f.d).toNat⟩

theorem encodePorts_ofInt (p : ConstPolicy) (a b c d : Int) :
    encodePorts p (BitVec.ofInt 32 a) (BitVec.ofInt 32 b) (BitVec.ofInt 32 c) (BitVec.ofInt 32 d) =
      encodeFields p (FieldCall.onPorts ⟨a, b, c, d⟩) := rfl

/-- A negative integer appears on a port beyond every field's width. -/
theorem fitsWidth_port {v : Int} (hv : PortRange v) {n : Nat} (hn : n ≤ 31) :
    fitsWidth n ((BitVec.ofInt 32 v).toNat : Int) = fitsWidth n v := by
  have hk : (2 : Int) ^ n ≤ 2 ^ 31 := pow_le_pow_right₀ (by decide) hn
  rw [Bool.eq_iff_iff, fitsWidth_iff, fitsWidth_iff, toNat_ofInt_eq_emod]
  omega

/-- A negative integer appears on a port beyond every opcode. -/
theorem port_eq_opcode_iff {v : Int} (hv : PortRange v) (op : Opcode) :
    ((BitVec.ofInt 32 v).toNat : Int) = op.toNat ↔ v = op.toNat := by
  rw [toNat_ofInt_eq_emod]
  omega

section
variable {f : FieldCall} (hop : PortRange f.opcode)
include hop

theorem FieldCall.toInstr_onPorts : f.onPorts.toInstr = f.toInstr := by
  simp only [FieldCall.onPorts, FieldCall.toInstr, FieldCall.isOp_iff, port_eq_opcode_iff hop, ofInt_port, Nat.reduceLeDiff]

theorem FieldCall.check_onPorts (p : ConstPolicy) (hb : PortRange f.b) (hc : PortRange f.c) (hd : PortRange f.d) :
    f.onPorts.check p = f.check p := by
  have hadmits : p.admits ((BitVec.ofInt 32 f.c).toNat : Int) = p.admits f.c := by
    cases p with
    | reject => exact fitsWidth_port hc (by decide)
    | truncate => rfl
  simp only [FieldCall.onPorts, FieldCall.check, Bool.or_eq_true, FieldCall.isOp_iff, port_eq_opcode_iff hop, hadmits,
    fitsWidth_port hb, fitsWidth_port hc, fitsWidth_port hd, Nat.reduceLeDiff]

theorem encodeFields_onPorts (p : ConstPolicy) (hb : PortRange f.b) (hc : PortRange f.c) (hd : PortRange f.d) :
    encodeFields p f.onPorts = encodeFields p f := by
  rw [encodeFields, FieldCall.check_onPorts hop p hb hc hd, FieldCall.toInstr_onPorts hop, encodeFields]

end

end Sys2Proof
end

section
/-! The claims of spec/40_codec.md, each from the lemmas above. -/

namespace Sys2Proof.Proofs

open Sys2Proof.Machine

/-- Settles O2: unpacking inverts packing, and an accepted call's bytes are the wire form of the call's own numbers. -/
theorem decodeOfEncodeIsTheInstruction : Obligations.DecodeOfEncodeIsTheInstruction := by
  refine ⟨decode_encode_append, fun b c hb0 hb => ?_⟩
  have hw := (encodeFields_loadConst .truncate (f := ⟨72, b, c, 0⟩) rfl).trans (if_pos ⟨⟨hb0, hb⟩, by simp⟩)
  exact ⟨_, hw, _, _, decode_encode _, toNat_ofInt_of_fits ⟨hb0, hb⟩, toNat_ofInt_eq_emod 28 c⟩

/-- Settles O4: encoding what was decoded clears the reserved bits, and every window of a recognised opcode's size decodes. -/
theorem encodeOfDecodeClearsReservedBits : Obligations.EncodeOfDecodeClearsReservedBits :=
  ⟨fun _ _ _ hd => ⟨(decode_ok_size hd).2, encode_of_decode hd, encode_of_decode_eq_iff hd⟩, exists_encode_eq_iff,
    [0x71, 0x03, 0x02], [0x71, 0x03, 0xE2], by decide, ⟨(.memRead 3 2, 3), by decide⟩, by decide⟩

/-- Settles O3: the bytes are the wire form of the call's instruction, which the decoder gives back. -/
theorem acceptedFieldsRoundTrip : Obligations.AcceptedFieldsRoundTrip := by
  intro p f w h
  obtain ⟨i, rfl, hi⟩ := exists_instr_of_encodeFields h
  exact ⟨i, rfl, decode_encode i, hi⟩

/-- Settles O5, by the bytes of layout L6 as numbers. -/
theorem packingLoadConst : Obligations.PackingLoadConst :=
  ⟨fun b c => packL6_toNat opLoadConst b c, by decide⟩

/-- Settles O6, by the bytes of layout M3 as numbers. -/
theorem packingMemReadAndMemWrite : Obligations.PackingMemReadAndMemWrite :=
  ⟨fun b c => ⟨packM3_toNat opMemRead b c, packM3_toNat opMemWrite b c⟩, by decide⟩

/-- Settles O7, by the bytes of layout N4 as numbers. -/
theorem packingNegStore : Obligations.PackingNegStore :=
  ⟨fun b c d => packN4_toNat opNegStore b c d, by decide⟩

/-- Settles O8, by the fields of layout L6 as numbers. -/
theorem unpackingLoadConst : Obligations.UnpackingLoadConst := by
  refine ⟨fun w0 w1 w2 w3 w4 w5 rest hop => ?_, by decide, by decide⟩
  obtain ⟨hb, hc⟩ := unpackL6_toNat w0 w1 w2 w3 w4 w5
  exact ⟨_, _, decode_loadConst _ _ _ _ _ rest ((opcodeOf_eq_iff w0 opLoadConst).mpr hop), hb, hc⟩

/-- Settles O9, by the fields of layout M3 as numbers. -/
theorem unpackingMemReadAndMemWrite : Obligations.UnpackingMemReadAndMemWrite := by
  refine ⟨fun w0 w1 w2 rest => ?_, by decide, by decide⟩
  obtain ⟨hb, hc⟩ := unpackM3_toNat w0 w1 w2
  exact ⟨_, _, hb, hc, fun hop => decode_memRead _ _ rest ((opcodeOf_eq_iff w0 opMemRead).mpr hop),
    fun hop => decode_memWrite _ _ rest ((opcodeOf_eq_iff w0 opMemWrite).mpr hop)⟩

/-- Settles O10, by the fields of layout N4 as numbers. -/
theorem unpackingNegStore : Obligations.UnpackingNegStore := by
  refine ⟨fun w0 w1 w2 w3 rest hop => ?_, by decide, by decide⟩
  obtain ⟨hb, hc, hd⟩ := unpackN4_toNat w0 w1 w2 w3
  exact ⟨_, _, _, decode_negStore _ _ _ rest ((opcodeOf_eq_iff w0 opNegStore).mpr hop), hb, hc, hd⟩

/-- Settles O11: with a recognised opcode the decoder answers an instruction or TruncatedInstruction. -/
theorem unknownOpcodeWhateverFollows : Obligations.UnknownOpcodeWhateverFollows :=
  decode_unknownOpcode_iff

/-- Settles O12: the fields of a recognised opcode can be read exactly where the bytes of its size are present. -/
theorem truncatedWhenBytesAreMissing : Obligations.TruncatedWhenBytesAreMissing :=
  decode_truncated_iff

/-- Settles O14, opcode by opcode. -/
theorem encoderConditions : Obligations.EncoderConditions := by
  refine fun p f => ⟨encodeFields_of_unknown p, fun hop => ?_, fun hop => ?_, fun hop => ?_⟩
  · exact length_of_encodeFields_eq_ite (encodeFields_loadConst p hop)
  · rcases hop with hop | hop
    · exact length_of_encodeFields_eq_ite (encodeFields_memRead p hop)
    · exact length_of_encodeFields_eq_ite (encodeFields_memWrite p hop)
  · exact length_of_encodeFields_eq_ite (encodeFields_negStore p hop)

/-- Settles O15: the number on a port has the same low bits, and it fits no field and is no opcode where the integer does not. -/
theorem portsAgreeWithIntegers : Obligations.PortsAgreeWithIntegers := by
  intro p a b c d ha0 ha hb0 hb hc0 hc hd0 hd
  rw [encodePorts_ofInt]
  exact encodeFields_onPorts (f := ⟨a, b, c, d⟩) ⟨ha0, ha⟩ p ⟨hb0, hb⟩ ⟨hc0, hc⟩ ⟨hd0, hd⟩

/-- Settles O30: the window is the first six of the bytes that remain, and the decoder looks no further. -/
theorem sixBytesDecideTheDecode : Obligations.SixBytesDecideTheDecode := by
  refine fun s => ⟨?_, fun k hsix hlimit => ?_⟩
  · rw [State.window_eq_take, decode_take_six]
  · exact Memory.readBytes_getElem? _ _ (by omega)

end Sys2Proof.Proofs
end

section
/-! Facts about the step and the run that the claims of spec/41_sequencer_datapath.md need: what the window at `pc` decodes to, which
run state a step leaves, and what driving a started engine comes to. -/

namespace Sys2Proof

/-! ### The decoder's answers for an empty window and for one that begins with a byte (R90 to R92) -/

/-- With a first byte, the decoder answers UnknownOpcode, TruncatedInstruction or an instruction of the opcode's size. -/
theorem decode_cons_cases (w0 : Byte) (rest : List Byte) : decode (w0 :: rest) = .error .unknownOpcode ∨
    decode (w0 :: rest) = .error .truncatedInstruction ∨
    ∃ i, decode (w0 :: rest) = .ok (i, sizeOfOpcode (w0.toNat % 128)) := by
  by_cases h : RecognisedOpcode (w0.toNat % 128)
  · obtain ⟨o, ho, -⟩ := decode_of_recognised rest h
    cases o with
    | none => exact .inr (.inl ho)
    | some i => exact .inr (.inr ⟨i, ho⟩)
  · exact .inl (decode_of_not_recognised rest h)

theorem decode_endOfProgram_iff (w : List Byte) : decode w = .error .endOfProgram ↔ w = [] := by
  cases w with
  | nil => simp [decode]
  | cons w0 rest => rcases decode_cons_cases w0 rest with hd | hd | ⟨i, hd⟩ <;> simp [hd]

/-- The size of a decoded instruction is that of its first byte's opcode. -/
theorem size_of_decode {w0 : Byte} {rest : List Byte} {i : Instr} {n : Nat} (h : decode (w0 :: rest) = .ok (i, n)) :
    i.size = sizeOfOpcode (w0.toNat % 128) := by
  obtain ⟨hn, -⟩ := decode_ok_size h
  rcases decode_cons_cases w0 rest with hd | hd | ⟨j, hd⟩
  · cases hd.symm.trans h
  · cases hd.symm.trans h
  · cases hd.symm.trans h
    exact hn.symm

theorem sizeOfOpcode_le_six (a : Nat) : sizeOfOpcode a ≤ 6 := by
  unfold sizeOfOpcode
  split_ifs <;> omega

end Sys2Proof

namespace Sys2Proof.Machine

/-! ### Steps 1 to 3: the window at the program counter (R101 to R104) -/

theorem State.window_length (s : State) : s.window.length = min 6 (s.fetchLimit - s.pc) :=
  Memory.readBytes_length _ _ _

/-- Where a byte remains, the window begins with the byte at `pc`. -/
theorem State.window_eq_cons {s : State} (h : 1 ≤ s.fetchLimit - s.pc) : ∃ rest, s.window = s.mem.read s.pc :: rest := by
  obtain ⟨k, hk⟩ := Nat.exists_eq_add_of_le' (show 1 ≤ min 6 (s.fetchLimit - s.pc) by omega)
  exact ⟨s.mem.readBytes (s.pc + 1) k, by rw [State.window, hk, Memory.readBytes]⟩

theorem decode_window_endOfProgram_iff (s : State) :
    decode s.window = .error .endOfProgram ↔ s.fetchLimit - s.pc < 1 := by
  rw [decode_endOfProgram_iff, ← List.length_eq_zero_iff, State.window_length]
  omega

theorem decode_window_unknownOpcode_iff (s : State) : decode s.window = .error .unknownOpcode ↔
    1 ≤ s.fetchLimit - s.pc ∧ ¬ RecognisedOpcode ((s.mem.read s.pc).toNat % 128) := by
  by_cases h : 1 ≤ s.fetchLimit - s.pc
  · obtain ⟨rest, hw⟩ := State.window_eq_cons h
    rw [hw, decode_unknownOpcode_iff, and_iff_right h]
  · simp [(decode_window_endOfProgram_iff s).mpr (Nat.not_le.mp h), h]

theorem decode_window_truncated_iff (s : State) : decode s.window = .error .truncatedInstruction ↔
    1 ≤ s.fetchLimit - s.pc ∧ RecognisedOpcode ((s.mem.read s.pc).toNat % 128) ∧
      s.fetchLimit - s.pc < sizeOfOpcode ((s.mem.read s.pc).toNat % 128) := by
  by_cases h : 1 ≤ s.fetchLimit - s.pc
  · obtain ⟨rest, hw⟩ := State.window_eq_cons h
    have hsize := sizeOfOpcode_le_six ((s.mem.read s.pc).toNat % 128)
    have hlen := s.window_length
    rw [hw] at hlen
    rw [hw, decode_truncated_iff, hlen, and_iff_right h]
    omega
  · simp [(decode_window_endOfProgram_iff s).mpr (Nat.not_le.mp h), h]

/-- A decoded instruction has the size of the opcode at `pc`. -/
theorem size_of_decode_window {s : State} {i : Instr} {n : Nat} (hd : decode s.window = .ok (i, n)) :
    i.size = sizeOfOpcode ((s.mem.read s.pc).toNat % 128) := by
  have hsize := i.three_le_size
  have hfits := decode_window_fits hd
  obtain ⟨rest, hw⟩ := State.window_eq_cons (show 1 ≤ s.fetchLimit - s.pc by omega)
  exact size_of_decode (hw ▸ hd)

/-! ### Steps 4 and 5: execution and the limit (R105, R106) -/

theorem exec_next (i : Instr) (s : State) : ∃ t, exec i s = .next t ∧ t.params = s.params := by
  rcases exec_cases i s with ⟨-, he⟩ | ⟨-, he⟩
  · exact ⟨_, he, rfl⟩
  · exact ⟨_, he, effect_params i s⟩

/-- The status that an executed instruction and the test of INSTRUCTION_LIMIT leave. -/
theorem effect_checkLimit_status {i : Instr} {s : State} (h : s.status = .running) : (effect i s).checkLimit.status =
    if s.params.instructionLimit ≤ s.count + 1 then .halted .instructionLimitExceeded else .running := by
  simp [State.checkLimit_status, h]

/-- A running engine with the invariant has a step. -/
theorem exists_step_next {s : State} (h : s.Inv) (hs : s.status = .running) : ∃ t, step s = .next t := by
  cases hd : decode s.window with
  | error e => exact ⟨_, step_decode_error hs h.fetchInside hd⟩
  | ok p =>
    obtain ⟨i, n⟩ := p
    obtain ⟨t, ht, -⟩ := exec_next i s
    exact ⟨t.checkLimit, by rw [step_decode_ok hs h.fetchInside hd, ht]; rfl⟩

/-! ### The run state a step leaves (R100) -/

@[simp] theorem haltReason_inj {e f : DecodeError} : DecodeError.haltReason e = DecodeError.haltReason f ↔ e = f := by
  cases e <;> cases f <;> simp [DecodeError.haltReason]

@[simp] theorem haltReason_ne_memoryFault (e : DecodeError) : DecodeError.haltReason e ≠ .memoryFault := by
  cases e <;> simp [DecodeError.haltReason]

@[simp] theorem haltReason_ne_limitExceeded (e : DecodeError) :
    DecodeError.haltReason e ≠ .instructionLimitExceeded := by
  cases e <;> simp [DecodeError.haltReason]

/-- The engine is halted for InstructionLimitExceeded exactly where its count is INSTRUCTION_LIMIT (R106, R160). -/
def State.LimitReasonIsFullCount (s : State) : Prop :=
  s.status = .halted .instructionLimitExceeded ↔ s.count = s.params.instructionLimit

theorem State.Inv.limitReasonIsFullCount_of_running {s : State} (h : s.Inv) (hs : s.status = .running) :
    s.LimitReasonIsFullCount := by
  simp [State.LimitReasonIsFullCount, hs, (h.countRunning hs).ne]

section
variable {s t : State} (h : step s = .next t)
include h

theorem running_of_step : s.status = .running := (step_cases h).1

/-- The status after a step, by the step's three outcomes. -/
theorem step_status_cases :
    (∃ e, decode s.window = .error e ∧ t.status = .halted (DecodeError.haltReason e)) ∨
    (∃ i n, decode s.window = .ok (i, n) ∧ i.FaultsIn s ∧ t.status = .halted .memoryFault) ∨
    (∃ i n, decode s.window = .ok (i, n) ∧ ¬ i.FaultsIn s ∧ t.status =
      if s.params.instructionLimit ≤ s.count + 1 then .halted .instructionLimitExceeded else .running) := by
  obtain ⟨hs, -, ⟨e, hd, rfl⟩ | ⟨i, n, hd, hf, rfl⟩ | ⟨i, n, hd, hf, rfl⟩⟩ := step_cases h
  · exact .inl ⟨e, hd, rfl⟩
  · exact .inr (.inl ⟨i, n, hd, hf, rfl⟩)
  · exact .inr (.inr ⟨i, n, hd, hf, effect_checkLimit_status hs⟩)

theorem step_status_decode_error_iff (e : DecodeError) :
    t.status = .halted (DecodeError.haltReason e) ↔ decode s.window = .error e := by
  obtain ⟨f, hd, ht⟩ | ⟨i, n, hd, -, ht⟩ | ⟨i, n, hd, -, ht⟩ := step_status_cases h
  · simp [ht, hd, eq_comm]
  · simp [ht, hd, (haltReason_ne_memoryFault e).symm]
  · rw [ht, hd]
    split <;> simp [(haltReason_ne_limitExceeded e).symm]

theorem step_status_memoryFault_iff :
    t.status = .halted .memoryFault ↔ ∃ i n, decode s.window = .ok (i, n) ∧ i.FaultsIn s := by
  obtain ⟨e, hd, ht⟩ | ⟨i, n, hd, hf, ht⟩ | ⟨i, n, hd, hf, ht⟩ := step_status_cases h
  · simp [ht, hd]
  · simp [ht, hd, hf]
  · rw [ht, hd]
    split <;> simp [hf]

theorem step_status_limitExceeded_iff : t.status = .halted .instructionLimitExceeded ↔
    ∃ i n, decode s.window = .ok (i, n) ∧ ¬ i.FaultsIn s ∧ s.params.instructionLimit ≤ s.count + 1 := by
  obtain ⟨e, hd, ht⟩ | ⟨i, n, hd, hf, ht⟩ | ⟨i, n, hd, hf, ht⟩ := step_status_cases h
  · simp [ht, hd]
  · simp [ht, hd, hf]
  · simp [ht, hd, hf]

theorem step_status_running_iff : t.status = .running ↔
    ∃ i n, decode s.window = .ok (i, n) ∧ ¬ i.FaultsIn s ∧ s.count + 1 < s.params.instructionLimit := by
  obtain ⟨e, hd, ht⟩ | ⟨i, n, hd, hf, ht⟩ | ⟨i, n, hd, hf, ht⟩ := step_status_cases h
  · simp [ht, hd]
  · simp [ht, hd, hf]
  · simp [ht, hd, hf]

/-! ### What a step counts (R105 to R107) -/

/-- A step halts with `pc` and `count` as they were, or moves past the instruction it executed and counts it. -/
theorem step_advance_cases : (t.pc = s.pc ∧ t.count = s.count ∧ t.status ≠ .running) ∨
    ∃ i n, decode s.window = .ok (i, n) ∧ ¬ i.FaultsIn s ∧ s.AdvancedBy t i.size := by
  obtain ⟨-, -, ⟨e, -, rfl⟩ | ⟨i, n, -, -, rfl⟩ | ⟨i, n, hd, hf, rfl⟩⟩ := step_cases h
  · exact .inl ⟨rfl, rfl, by simp⟩
  · exact .inl ⟨rfl, rfl, by simp⟩
  · exact .inr ⟨i, n, hd, hf, by simp [State.AdvancedBy]⟩

theorem step_params : t.params = s.params := (Proofs.stepsKeepTheInstance s t h).2.1

/-- A step leaves the engine Running, with one more instruction counted, or Halted. -/
theorem step_running_or_halted : (t.status = .running ∧ t.count = s.count + 1) ∨ ∃ r, t.status = .halted r := by
  cases ht : t.status with
  | notStarted =>
    obtain ⟨e, -, hst⟩ | ⟨i, n, -, -, hst⟩ | ⟨i, n, -, -, hst⟩ := step_status_cases h
    · simp [hst] at ht
    · simp [hst] at ht
    · rw [hst] at ht
      split at ht <;> cases ht
  | running =>
    rcases step_advance_cases h with ⟨-, -, hn⟩ | ⟨i, n, -, -, hadv⟩
    · exact absurd ht hn
    · exact .inl ⟨rfl, hadv.2⟩
  | halted r => exact .inr ⟨r, rfl⟩

/-- A step from a state with the invariant halts for the limit exactly where it counts the last instruction admitted. -/
theorem step_limitReasonIsFullCount (hinv : s.Inv) : t.LimitReasonIsFullCount := by
  have hlt := hinv.countRunning (running_of_step h)
  rw [State.LimitReasonIsFullCount, step_status_limitExceeded_iff h, step_params h]
  obtain ⟨-, -, ⟨e, hd, rfl⟩ | ⟨i, n, hd, hf, rfl⟩ | ⟨i, n, hd, hf, rfl⟩⟩ := step_cases h
  · simp [hd, hlt.ne]
  · simp [hd, hf, hlt.ne]
  · simp only [hd, State.checkLimit_count, effect_count]
    constructor
    · rintro ⟨-, -, -, -, hle⟩
      omega
    · exact fun he => ⟨i, n, rfl, hf, he.ge⟩

end

/-! ### Driving the engine (R108, R109) -/

theorem drive_succ {s t : State} (h : step s = .next t) (fuel : Nat) : drive (fuel + 1) s = drive fuel t := by
  simp [drive, h]

/-- A halted engine stays as it is. -/
theorem drive_of_halted {s : State} {r : HaltReason} (h : s.status = .halted r) (fuel : Nat) : drive fuel s = s := by
  cases fuel with
  | zero => rfl
  | succ fuel => simp [drive, step_halted h]

/-- What every step keeps, driving keeps. -/
theorem drive_induction {P : State → Prop} (hstep : ∀ s t, P s → step s = .next t → P t) (fuel : Nat) {s : State}
    (hs : P s) : P (drive fuel s) := by
  induction fuel generalizing s with
  | zero => exact hs
  | succ fuel ih =>
    cases h : step s with
    | next t => rw [drive_succ h]; exact ih (hstep s t hs h)
    | fault f => simpa [drive, h] using hs
    | refused f => simpa [drive, h] using hs

theorem drive_inv {s : State} (h : s.Inv) (fuel : Nat) : (drive fuel s).Inv :=
  drive_induction (fun _ _ => State.Inv.step) fuel h

theorem drive_params (s : State) (fuel : Nat) : (drive fuel s).params = s.params :=
  drive_induction (P := fun t => t.params = s.params) (fun _ _ hp h => (step_params h).trans hp) fuel rfl

/-- A running engine is halted after as many steps as instructions are left to INSTRUCTION_LIMIT: each step that does not halt
counts one, and a running engine is below the limit. No further step changes it. -/
theorem drive_halts {s : State} {k : Nat} (h : s.Inv) (hs : s.status = .running)
    (hk : s.params.instructionLimit ≤ s.count + k) :
    ∃ t r, t.status = .halted r ∧ ∀ fuel, k ≤ fuel → drive fuel s = t := by
  induction k generalizing s with
  | zero => exact absurd (h.countRunning hs) (Nat.not_lt.mpr hk)
  | succ k ih =>
    obtain ⟨u, hu⟩ := exists_step_next h hs
    have hdrive (t : State) (ht : ∀ fuel, k ≤ fuel → drive fuel u = t) : ∀ fuel, k + 1 ≤ fuel → drive fuel s = t := by
      intro fuel hfuel
      obtain ⟨j, rfl⟩ := Nat.exists_eq_add_of_le' (Nat.le_trans (Nat.le_add_left 1 k) hfuel)
      rw [drive_succ hu]
      exact ht j (Nat.le_of_succ_le_succ hfuel)
    rcases step_running_or_halted hu with ⟨hrun, hcount⟩ | ⟨r, hr⟩
    · obtain ⟨t, r, hr, ht⟩ := ih (h.step hu) hrun (by rw [step_params hu, hcount]; omega)
      exact ⟨t, r, hr, hdrive t ht⟩
    · exact ⟨u, r, hr, hdrive u fun fuel _ => drive_of_halted hr fuel⟩

theorem drive_limitReasonIsFullCount {s : State} (h : s.Inv) (hs : s.status = .running) (fuel : Nat) :
    (drive fuel s).LimitReasonIsFullCount :=
  (drive_induction (P := fun t => t.Inv ∧ t.LimitReasonIsFullCount)
    (fun _ _ ht hstep => ⟨ht.1.step hstep, step_limitReasonIsFullCount hstep ht.1⟩) fuel
    ⟨h, h.limitReasonIsFullCount_of_running hs⟩).2

/-! ### The start and the run (R108) -/

/-- The start keeps the invariant: nothing has been counted, and INSTRUCTION_LIMIT is at least 1. -/
theorem State.Inv.start {s : State} (h : s.Inv) (hs : s.status = .notStarted) : s.start.Inv where
  paramsLegal := h.paramsLegal
  memCanonical := h.memCanonical
  memInside := h.memInside
  fetchInside := h.fetchInside
  fetchWhole := h.fetchWhole
  pcInside := h.pcInside
  countInside := h.countInside
  countRunning := fun _ => by
    obtain ⟨-, hcount, -⟩ := h.fresh hs
    have hlimit := h.paramsLegal.2
    simp only [State.start_count, State.start_params, hcount]
    omega
  pcAtLeast := h.pcAtLeast
  pcAtMost := h.pcAtMost
  fresh := by simp
  unloaded := by simp

theorem run_of_halted {s : State} {r : HaltReason} (hs : s.status = .notStarted)
    (h : (drive (s.params.instructionLimit + 1) s.start).status = .halted r) :
    run s = .done ⟨r, (drive (s.params.instructionLimit + 1) s.start).count,
      drive (s.params.instructionLimit + 1) s.start⟩ := by
  simp [run, hs, h]

/-- A run that is done was admitted, ended Halted, and gives back the reason and the count of its final state. -/
theorem run_done {s : State} {r : RunResult} (h : run s = .done r) : s.status = .notStarted ∧
    r.final = drive (s.params.instructionLimit + 1) s.start ∧ r.final.status = .halted r.reason ∧
    r.count = r.final.count := by
  simp only [run] at h
  split at h
  · rename_i hs
    split at h
    · rename_i reason hr
      cases h
      exact ⟨hs, rfl, hr, rfl⟩
    · cases h
    · cases h
  · cases h

end Sys2Proof.Machine
end

section
/-! The claims of spec/41_sequencer_datapath.md, each from the lemmas above. -/

namespace Sys2Proof.Proofs

open Sys2Proof.Machine

/-- Settles O29: an instruction answers a next state with the same INSTRUCTION_LIMIT, which step 5 then tests. -/
theorem stepRunsTheDecodedInstruction : Obligations.StepRunsTheDecodedInstruction := by
  intro s i n h hs hd
  obtain ⟨t, ht, hparams⟩ := exec_next i s
  refine ⟨t, ht, ?_⟩
  rw [step_decode_ok hs h.fetchInside hd, ht, ← hparams]
  rfl

/-- Settles O31: the window is empty, and `pc` is at `fetch_limit` by the invariant. -/
theorem stepAtTheEndHalts : Obligations.StepAtTheEndHalts := by
  intro s h hs hend
  have hpc : s.pc = s.fetchLimit := Nat.le_antisymm h.pcInside (by omega)
  exact ⟨step_decode_error hs h.fetchInside ((decode_window_endOfProgram_iff s).mpr hend), hpc,
    fun hmode => hpc.trans (h.fetchWhole hmode)⟩

/-- Settles O32: the opcode of a zero byte is 0, which is not recognised. -/
theorem stepAtAnUnknownOpcodeHalts : Obligations.StepAtAnUnknownOpcodeHalts := by
  intro s h hs hbyte hop
  have hunknown : ¬ RecognisedOpcode ((s.mem.read s.pc).toNat % 128) := by
    rcases hop with hop | hzero
    · exact hop
    · rw [hzero]; decide
  exact step_decode_error hs h.fetchInside ((decode_window_unknownOpcode_iff s).mpr ⟨hbyte, hunknown⟩)

/-- Settles O33: the decoder refuses what is not whole below `fetch_limit`, so what is executed ends at or below it. -/
theorem stepAtATruncatedInstructionHalts : Obligations.StepAtATruncatedInstructionHalts := by
  refine fun s h hs => ⟨fun hbyte hop hlen => ?_, fun t ht hmoved => ?_⟩
  · exact step_decode_error hs h.fetchInside ((decode_window_truncated_iff s).mpr ⟨hbyte, hop, hlen⟩)
  · rcases step_advance_cases ht with ⟨hpc, -, -⟩ | ⟨i, n, hd, -, hpc, -⟩
    · exact absurd hpc hmoved
    · exact ⟨by rw [hpc, size_of_decode_window hd], hpc ▸ decode_window_fits hd⟩

/-- Settles O34: a step advances by the size of the instruction it executed or not at all. -/
theorem programCounterOnlyAdvances : Obligations.ProgramCounterOnlyAdvances := by
  intro s t hstep
  rcases step_advance_cases hstep with hhalt | ⟨i, n, hd, -, hpc, hcount⟩
  · exact .inl hhalt
  · refine .inr ⟨hcount, ?_⟩
    cases i with
    | loadConst d v => exact .inl ⟨d, v, n, hd, hpc⟩
    | memRead d a => exact .inr (.inl ⟨d, a, n, hd, hpc⟩)
    | memWrite r a => exact .inr (.inr (.inl ⟨r, a, n, hd, hpc⟩))
    | negStore o b r => exact .inr (.inr (.inr ⟨o, b, r, n, hd, hpc⟩))

/-- Settles O35, status by status; a running engine is below INSTRUCTION_LIMIT, so the count that reaches it equals it. -/
theorem transitionTable : Obligations.TransitionTable := by
  refine ⟨fun s hs => ⟨rfl, fun t => by simp [step_notStarted hs]⟩, fun s r hs t => by simp [step_halted hs],
    fun s h hs => ?_⟩
  obtain ⟨t, ht⟩ := exists_step_next h hs
  have hlimit : s.params.instructionLimit ≤ s.count + 1 ↔ s.count + 1 = s.params.instructionLimit := by
    have hlt := h.countRunning hs
    omega
  refine ⟨t, ht, ?_, ?_, ?_, step_status_memoryFault_iff ht, ?_, step_status_running_iff ht⟩
  · exact (step_status_decode_error_iff ht .endOfProgram).trans (decode_window_endOfProgram_iff s)
  · exact (step_status_decode_error_iff ht .unknownOpcode).trans (decode_window_unknownOpcode_iff s)
  · exact (step_status_decode_error_iff ht .truncatedInstruction).trans (decode_window_truncated_iff s)
  · simpa only [hlimit] using step_status_limitExceeded_iff ht

/-- Settles O43: INSTRUCTION_LIMIT steps halt the started engine, and more change nothing. -/
theorem everyRunEnds : Obligations.EveryRunEnds := by
  intro s h hs
  have hstart := h.start hs
  obtain ⟨t, reason, hreason, hdrive⟩ := drive_halts hstart rfl (Nat.le_add_left s.params.instructionLimit _)
  have ht := hdrive (s.params.instructionLimit + 1) (Nat.le_succ _)
  have hcount := (drive_inv hstart (s.params.instructionLimit + 1)).countInside
  rw [drive_params, State.start_params, ht] at hcount
  have hrun := run_of_halted hs (ht ▸ hreason)
  rw [ht] at hrun
  exact ⟨_, hrun, hreason, rfl, hcount, fun fuel hfuel => hdrive fuel hfuel.le⟩

/-- Settles O44: before the first step neither side holds, and each step leaves both or neither. -/
theorem limitReasonIsTheFullCount : Obligations.LimitReasonIsTheFullCount := by
  intro s r h hrun
  obtain ⟨hs, hfinal, hstatus, hcount⟩ := run_done hrun
  have hiff := drive_limitReasonIsFullCount (h.start hs) rfl (s.params.instructionLimit + 1)
  rw [State.LimitReasonIsFullCount, drive_params, State.start_params, ← hfinal, hstatus, ← hcount] at hiff
  simpa using hiff

end Sys2Proof.Proofs
end

section
/-! Facts that the claims of spec/42_load_constant.md need: the widened constant as a number, what an instruction's effect
leaves of the sequencer and the registers, a wire form cut short, and layout L6 with its reserved bits set (R58, R92, R105, R120). -/

namespace Sys2Proof.Machine

/-- Zero-extension keeps the number (R120). -/
theorem zext32_toNat (c : Const28) : (zext32 c).toNat = c.toNat :=
  BitVec.toNat_setWidth_of_le (by decide)

theorem effect_advancedBy (i : Instr) (s : State) : s.AdvancedBy (effect i s) i.size :=
  ⟨effect_pc i s, effect_count i s⟩

theorem effect_sameControl (i : Instr) (s : State) : s.SameControl (effect i s) :=
  ⟨effect_status i s, effect_fetchLimit i s, effect_loaded i s, effect_params i s⟩

theorem effect_sameRegsBut {i : Instr} {d : RegIndex} (s : State) (h : i.writtenReg = some d) :
    s.SameRegsBut (effect i s) d :=
  fun _ hr => effect_readReg_of_not_written s (h ▸ fun he => hr (Option.some.inj he).symm)

theorem effect_loadConst_readReg_toNat (d : RegIndex) (v : Const28) (s : State) :
    ((effect (.loadConst d v) s).readReg d).toNat = v.toNat := by
  rw [effect, State.retire_readReg, State.readReg_writeReg_self, zext32_toNat]

/-- LoadConst makes no data access, so it has its effect in every state. -/
theorem exec_loadConst (d : RegIndex) (v : Const28) (s : State) :
    exec (.loadConst d v) s = .next (effect (.loadConst d v) s) := rfl

end Sys2Proof.Machine

namespace Sys2Proof

/-- A wire form that is begun but cut short is TruncatedInstruction (R92). -/
theorem decode_take_encode {i : Instr} {k : Nat} (hpos : 1 ≤ k) (hk : k < i.size) :
    decode ((encode i).take k) = .error .truncatedInstruction := by
  obtain ⟨w0, rest, hw, hop⟩ := encode_eq_cons i
  obtain ⟨n, rfl⟩ := Nat.exists_eq_add_of_le' hpos
  rw [hw, List.take_succ_cons, decode_truncated_iff, hop, sizeOfOpcode_opcode]
  refine ⟨recognisedOpcode_opcode i, lt_of_le_of_lt ?_ hk⟩
  simp

/-- A bit field of a byte is unchanged when bits are set by a mask that has a 0 at each of the field's bits. -/
theorem extractLsb_or_of_mask {n hi lo : Nat} {v x m : BitVec n} (hm : m.extractLsb hi lo = 0#_) :
    (v ||| (x &&& m)).extractLsb hi lo = v.extractLsb hi lo := by
  rw [BitVec.extractLsb_or, BitVec.extractLsb_and, hm, BitVec.and_zero, BitVec.or_zero]

theorem unpackL6_setReserved (w0 w1 w2 w3 w4 w5 x : Byte) :
    unpackL6 w0 w1 w2 w3 w4 (w5 ||| (x &&& 0xCF#8)) = unpackL6 w0 w1 w2 w3 w4 w5 := by
  rw [unpackL6, extractLsb_or_of_mask (by decide), unpackL6]

/-- Setting reserved bits of a LoadConst's last byte does not change what it decodes to (R58, R96). -/
theorem decode_loadConst_setReserved {w0 : Byte} (h : opcodeOf w0 = opLoadConst) (w1 w2 w3 w4 w5 x : Byte) :
    decode [w0, w1, w2, w3, w4, w5 ||| (x &&& 0xCF#8)] = decode [w0, w1, w2, w3, w4, w5] := by
  rw [decode_loadConst _ _ _ _ _ _ h, unpackL6_setReserved, decode_loadConst _ _ _ _ _ _ h]

end Sys2Proof
end

section
/-! The claims of spec/42_load_constant.md, each from the lemmas above. -/

namespace Sys2Proof.Proofs

open Sys2Proof.Machine

/-- Settles O22: the instruction has its effect in every state, and its six bytes decode with any reserved bits and never cut
short. -/
theorem loadConstCompletes : Obligations.LoadConstCompletes := by
  refine ⟨fun d v s => ?_, fun d v => ?_, by decide⟩
  · have hmem : (effect (.loadConst d v) s).mem = s.mem := effect_mem_of_storedWord_none rfl
    exact ⟨effect (.loadConst d v) s, exec_loadConst d v s, effect_loadConst_readReg_toNat d v s, effect_sameRegsBut s rfl,
      fun _ => by rw [hmem], effect_advancedBy (.loadConst d v) s, effect_sameControl (.loadConst d v) s⟩
  · refine ⟨_, _, _, _, _, _, rfl, opcodeByte_toNat_mod _ opLoadConst, fun x => ?_, fun k hpos hk => ?_⟩
    · exact (decode_loadConst_setReserved (opcodeOf_append _ _) _ _ _ _ _ x).trans (decode_encode (.loadConst d v))
    · exact decode_take_encode (i := .loadConst d v) hpos hk

end Sys2Proof.Proofs
end

section
/-! Facts that the claims of spec/43_memory_transfer.md need: the word an instruction loads or stores, a decode that looks at the
instruction's own bytes alone, and the step of an instruction that completes below INSTRUCTION_LIMIT (R96, R105, R125, R126). -/

namespace Sys2Proof

/-- The decoder looks at the instruction's own bytes alone (R96). -/
theorem decode_take_append {w : List Byte} {i : Instr} {n : Nat} (h : decode w = .ok (i, n)) (rest : List Byte) :
    decode (w.take n ++ rest) = .ok (i, n) := by
  obtain ⟨w0, w1, w2, w3, w4, w5, tail, rfl, hop⟩ | ⟨w0, w1, w2, tail, rfl, hop | hop⟩ |
    ⟨w0, w1, w2, w3, tail, rfl, hop⟩ := decode_ok_cases h
  · rw [decode_loadConst _ _ _ _ _ _ hop] at h
    cases h
    exact decode_loadConst _ _ _ _ _ _ hop
  · rw [decode_memRead _ _ _ hop] at h
    cases h
    exact decode_memRead _ _ _ hop
  · rw [decode_memWrite _ _ _ hop] at h
    cases h
    exact decode_memWrite _ _ _ hop
  · rw [decode_negStore _ _ _ _ hop] at h
    cases h
    exact decode_negStore _ _ _ _ hop

/-- Windows that begin with the same bytes of an instruction decode to it alike. -/
theorem decode_eq_of_take_eq {w v : List Byte} {i : Instr} {n : Nat} (h : decode w = .ok (i, n))
    (hv : v.take n = w.take n) : decode v = .ok (i, n) := by
  rw [← List.take_append_drop n v, hv]
  exact decode_take_append h _

end Sys2Proof

namespace Sys2Proof.Machine

/-! ### What an instruction's effect loads and stores (R37, R125, R126) -/

theorem effect_memRead_readReg (d a : RegIndex) (s : State) :
    (effect (.memRead d a) s).readReg d = s.mem.readWord (s.indirectAddress a) := by
  rw [effect, State.retire_readReg, State.readReg_writeReg_self]

theorem effect_sameRegs {i : Instr} (s : State) (h : i.writtenReg = none) : s.SameRegs (effect i s) :=
  fun _ => effect_readReg_of_not_written s (by simp [h])

section
variable {i : Instr} {s : State} {a : Nat} {v : Word} (h : i.storedWord s = some (a, v))
include h

theorem effect_holdsWord : (effect i s).HoldsWord a v := by
  simp [State.HoldsWord, effect_mem_of_storedWord_some h, Memory.read_writeWord]

theorem effect_sameMemBut : s.SameMemBut (effect i s) a := by
  intro x hx
  rw [effect_mem_of_storedWord_some h, Memory.read_writeWord_outside _ _ _ _ hx]

end

/-- An instruction whose data access is within the bound has its effect (R36). -/
theorem exec_of_inBounds {i : Instr} {s : State} {a : Nat} (ha : i.dataAddress s = some a)
    (h : a + 4 ≤ s.params.memorySize) : exec i s = .next (effect i s) :=
  exec_of_not_faultsIn ((not_faultsIn_of_dataAddress ha).mpr h)

/-! ### Two instructions in a row (R105, R106) -/

theorem State.checkLimit_of_count_lt {s : State} (h : s.count < s.params.instructionLimit) : s.checkLimit = s :=
  if_neg fun hlimit => Nat.not_le.mpr h hlimit.2

/-- The step of an instruction whose data access is within the bound (R105, R106). -/
theorem step_of_inBounds {s : State} {i : Instr} {n a : Nat} (hs : s.status = .running)
    (hfetch : s.fetchLimit ≤ s.params.memorySize) (hd : decode s.window = .ok (i, n)) (ha : i.dataAddress s = some a)
    (h : a + 4 ≤ s.params.memorySize) : step s = .next (effect i s).checkLimit := by
  rw [step_decode_ok hs hfetch hd, exec_of_inBounds ha h]
  rfl

/-- An instruction that a memory holds at `pc` is fetched from any memory with the same bytes there (R45). -/
theorem decode_window_of_same_bytes {s : State} {m : Memory} {i : Instr} {n : Nat}
    (h : decode (m.readBytes s.pc (s.fetchLimit - s.pc)) = .ok (i, n))
    (hsame : ∀ x, s.pc ≤ x → x < s.pc + i.size → s.mem.read x = m.read x) : decode s.window = .ok (i, n) := by
  rw [State.window_eq_take, decode_take_six]
  refine decode_eq_of_take_eq h ?_
  rw [Memory.take_readBytes, Memory.take_readBytes]
  refine Memory.readBytes_congr fun x hpc hx => hsame x hpc ?_
  obtain ⟨rfl, -⟩ := decode_ok_size h
  omega

/-- A word stored and then loaded through the same address register comes back (R127). -/
theorem effect_memRead_of_effect_memWrite (src addr dest : RegIndex) (s : State) :
    (effect (.memRead dest addr) (effect (.memWrite src addr) s)).readReg dest = s.readReg src := by
  rw [effect_memRead_readReg, effect_mem_of_storedWord_some rfl]
  exact Memory.readWord_writeWord _ _ _

end Sys2Proof.Machine
end

section
/-! The claims of spec/43_memory_transfer.md, each from the lemmas above. -/

namespace Sys2Proof.Proofs

open Sys2Proof.Machine

/-- Settles O23: within the bound the instruction has its effect, whose register is the joined word at the old address. -/
theorem memReadCompletes : Obligations.MemReadCompletes := by
  intro d a s h
  have hmem : (effect (.memRead d a) s).mem = s.mem := effect_mem_of_storedWord_none rfl
  refine ⟨effect (.memRead d a) s, exec_of_inBounds rfl h, ?_, effect_sameRegsBut s rfl, fun _ => by rw [hmem],
    effect_advancedBy (.memRead d a) s, effect_sameControl (.memRead d a) s⟩
  rw [effect_memRead_readReg]
  exact le32_toNat _ _ _ _

/-- Settles O24: within the bound the instruction has its effect, which stores the word and writes no register. -/
theorem memWriteCompletes : Obligations.MemWriteCompletes :=
  fun r a s h => ⟨effect (.memWrite r a) s, exec_of_inBounds rfl h, effect_holdsWord rfl, effect_sameMemBut rfl,
    effect_sameRegs s rfl, effect_advancedBy (.memWrite r a) s, effect_sameControl (.memWrite r a) s⟩

/-- Settles O28: the first step is the store's effect, which leaves the MemRead's three bytes and the address register, so the
second step loads the word just stored. -/
theorem writeThenReadGivesTheValue : Obligations.WriteThenReadGivesTheValue := by
  intro s src addr dest n k hinv hs hcount hdWrite hdRead hbound hapart
  have hfirst : step s = .next (effect (.memWrite src addr) s) := by
    rw [step_of_inBounds hs hinv.fetchInside hdWrite rfl hbound, State.checkLimit_of_count_lt hcount]
  have hfetched : decode (effect (.memWrite src addr) s).window = .ok (.memRead dest addr, k) := by
    refine decode_window_of_same_bytes hdRead fun x hpc hx => effect_sameMemBut rfl x ?_
    simp only [effect_pc, Instr.size] at hpc hx
    omega
  refine ⟨_, _, hfirst, step_of_inBounds hs hinv.fetchInside hfetched rfl hbound, ?_⟩
  rw [State.checkLimit_readReg]
  exact effect_memRead_of_effect_memWrite src addr dest s

end Sys2Proof.Proofs
end

section
/-! Facts that the claims of spec/44_negate_store.md need: the laws of the negation, and a NegStore followed by a load of the word
it stored (R135, R136, R137). -/

namespace Sys2Proof.Machine

/-! ### The negation (R136, R137) -/

theorem neg32_toNat_of_ne_zero {v : Word} (h : v ≠ 0) : (neg32 v).toNat = 2 ^ 32 - v.toNat := by
  rw [neg32_eq_neg, BitVec.toNat_neg_of_pos (BitVec.toNat_pos_of_ne_zero h)]

/-- The negation flips the sign of every word but 0 and the smallest signed number, so it has no other fixed point (R136). -/
theorem neg32_ne_self {v : Word} (hzero : v ≠ 0) (hmin : v ≠ 0x80000000#32) : neg32 v ≠ v := by
  intro hself
  have hsign : (neg32 v).msb = !v.msb := by
    rw [neg32_eq_neg]
    exact BitVec.msb_neg_of_ne_intMin_of_ne_zero hmin hzero
  rw [hself] at hsign
  exact Bool.self_ne_not _ hsign

theorem toNat_add_neg32_mod (v : Word) : (v.toNat + (neg32 v).toNat) % 2 ^ 32 = 0 := by
  rw [← BitVec.toNat_add, neg32_eq_neg, BitVec.add_right_neg]
  rfl

/-- The negation as the complement plus 1 (R136). -/
theorem neg32_eq_not_add_one (v : Word) : neg32 v = ~~~v + 1 := by
  rw [neg32_eq_neg]
  exact BitVec.neg_eq_not_add v

theorem neg32_toInt {v : Word} (h : v ≠ 0x80000000#32) : (neg32 v).toInt = -v.toInt := by
  rw [neg32_eq_neg]
  exact BitVec.toInt_neg_of_ne_intMin h

theorem neg32_neg32 (v : Word) : neg32 (neg32 v) = v := by
  rw [neg32_eq_neg, neg32_eq_neg, BitVec.neg_neg]

/-! ### A store and a load of the stored word (R37, R137) -/

/-- A load from the address that the instruction before it stored to gives the stored word. -/
theorem effect_memRead_of_storedWord {i : Instr} {s : State} {a : Nat} {v : Word} (h : i.storedWord s = some (a, v))
    {read : RegIndex} (haddr : (effect i s).indirectAddress read = a) (dest : RegIndex) :
    (effect (.memRead dest read) (effect i s)).readReg dest = v := by
  rw [effect_memRead_readReg, haddr, effect_mem_of_storedWord_some h, Memory.readWord_writeWord]

/-- A NegStore within the bound completes, and a MemRead of the address it stored to then completes with the negated word. -/
theorem exec_negStore_then_memRead {o : Offset} {base : RegIndex} {s : State}
    (h : s.offsetAddress base o + 4 ≤ s.params.memorySize) (src : RegIndex) :
    ∃ t, exec (.negStore o base src) s = .next t ∧ ∀ dest read, t.indirectAddress read = s.offsetAddress base o →
      ∃ u, exec (.memRead dest read) t = .next u ∧ u.readReg dest = neg32 (s.readReg src) := by
  refine ⟨_, exec_of_inBounds rfl h, fun dest read haddr => ⟨_, exec_of_inBounds rfl ?_, ?_⟩⟩
  · rw [haddr, effect_params]
    exact h
  · exact effect_memRead_of_storedWord rfl haddr dest

end Sys2Proof.Machine
end

section
/-! The claims of spec/44_negate_store.md, each from the lemmas above. -/

namespace Sys2Proof.Proofs

open Sys2Proof.Machine

/-- Settles O16: each law of the negation in turn, and the four listed values by evaluation. -/
theorem negationLaws : Obligations.NegationLaws :=
  ⟨fun v => ⟨neg32_toNat v, fun hzero hmin => ⟨neg32_toNat_of_ne_zero hzero, neg32_ne_self hzero hmin⟩,
    toNat_add_neg32_mod v, neg32_eq_not_add_one v, neg32_toInt⟩, by decide⟩

/-- Settles O17: the store and load of the negated word, made twice, negate the source's value twice. -/
theorem doubleNegationRestores : Obligations.DoubleNegationRestores := by
  refine ⟨neg32_neg32, fun s o1 o2 base1 src read1 mid base2 read2 dest hbound1 => ?_⟩
  obtain ⟨t1, hstore1, hload1⟩ := exec_negStore_then_memRead hbound1 src
  refine ⟨t1, hstore1, fun haddr1 => ?_⟩
  obtain ⟨t2, hread1, hmid⟩ := hload1 mid read1 haddr1
  refine ⟨t2, hread1, fun hbound2 => ?_⟩
  obtain ⟨t3, hstore2, hload2⟩ := exec_negStore_then_memRead hbound2 mid
  refine ⟨t3, hstore2, fun haddr2 => ?_⟩
  obtain ⟨t4, hread2, hdest⟩ := hload2 dest read2 haddr2
  exact ⟨t4, hread2, by rw [hdest, hmid, neg32_neg32]⟩

/-- Settles O25: within the bound on the unreduced sum the instruction has its effect, which stores the negated word and writes
no register. -/
theorem negStoreCompletes : Obligations.NegStoreCompletes :=
  fun o b r s h => ⟨effect (.negStore o b r) s, exec_of_inBounds rfl h, effect_holdsWord rfl, effect_sameMemBut rfl,
    effect_sameRegs s rfl, effect_advancedBy (.negStore o b r) s, effect_sameControl (.negStore o b r) s⟩

end Sys2Proof.Proofs
end

section
/-! Facts that the claims of spec/60_exceptions.md need: the state a halting step leaves, what it still shows of the halt's reason,
and what a status other than NotStarted refuses (R108, R151 to R155, R161, R182). -/

namespace Sys2Proof.Machine

/-! ### What a halt leaves unchanged (R161) -/

@[simp] theorem State.halt_window (s : State) (r : HaltReason) : (s.halt r).window = s.window := rfl

/-- A halt keeps every register and MEMORY_SIZE, so an instruction faults after it as before. -/
@[simp] theorem faultsIn_halt (i : Instr) (s : State) (r : HaltReason) : i.FaultsIn (s.halt r) ↔ i.FaultsIn s := by
  cases i <;> rfl

/-! ### The step that halts (R106, R161) -/

/-- The test of INSTRUCTION_LIMIT changes nothing or halts. -/
theorem State.checkLimit_eq_or_halt (s : State) : s.checkLimit = s ∨ s.checkLimit = s.halt .instructionLimitExceeded :=
  (ite_eq_or_eq _ _ _).symm

section
variable {s t : State} (h : step s = .next t)
include h

/-- A step that halts does so from the state before it, or for the limit from the state after its instruction's effect. -/
theorem step_halted_cases {r : HaltReason} (ht : t.status = .halted r) :
    (r ≠ .instructionLimitExceeded ∧ t = s.halt r) ∨
    (r = .instructionLimitExceeded ∧
      ∃ i n, decode s.window = .ok (i, n) ∧ ¬ i.FaultsIn s ∧ t = (effect i s).halt r) := by
  obtain ⟨hs, -, ⟨e, -, rfl⟩ | ⟨i, n, -, -, rfl⟩ | ⟨i, n, hd, hf, rfl⟩⟩ := step_cases h
  · cases ht
    exact .inl ⟨haltReason_ne_limitExceeded e, rfl⟩
  · cases ht
    exact .inl ⟨by decide, rfl⟩
  · rcases State.checkLimit_eq_or_halt (effect i s) with heq | heq
    · rw [heq, effect_status, hs] at ht
      cases ht
    · rw [heq] at ht ⊢
      cases ht
      exact .inr ⟨rfl, i, n, hd, hf, rfl⟩

theorem eq_halt_of_step {r : HaltReason} (ht : t.status = .halted r) (hr : r ≠ .instructionLimitExceeded) :
    t = s.halt r := by
  rcases step_halted_cases h ht with ⟨-, heq⟩ | ⟨hlimit, -⟩
  · exact heq
  · exact absurd hlimit hr

/-! ### What the halted state records (R151 to R155) -/

/-- An engine that halted because it could not decode still has the window it could not decode. -/
theorem decode_window_of_step_halted {e : DecodeError} (ht : t.status = .halted (DecodeError.haltReason e)) :
    decode t.window = .error e := by
  rw [eq_halt_of_step h ht (haltReason_ne_limitExceeded e), State.halt_window]
  exact (step_status_decode_error_iff h e).mp ht

/-- An engine that halted with MemoryFault still has the faulting instruction at `pc`. -/
theorem faultsIn_of_step_halted (ht : t.status = .halted .memoryFault) :
    ∃ i n, decode t.window = .ok (i, n) ∧ i.FaultsIn t := by
  rw [eq_halt_of_step h ht (by decide)]
  simpa using (step_status_memoryFault_iff h).mp ht

/-- An engine that halted for the limit has executed the instruction it decoded, and stands just past it. -/
theorem pc_of_step_limitExceeded (ht : t.status = .halted .instructionLimitExceeded) :
    ∃ i n, decode s.window = .ok (i, n) ∧ ¬ i.FaultsIn s ∧ t.pc = s.pc + n := by
  rcases step_halted_cases h ht with ⟨hn, -⟩ | ⟨-, i, n, hd, hf, rfl⟩
  · exact absurd rfl hn
  · obtain ⟨rfl, -⟩ := decode_ok_size hd
    exact ⟨i, _, hd, hf, effect_pc i s⟩

end

/-! ### What is admitted in NotStarted only (R108, R182) -/

theorem load_of_ne_notStarted {s : State} (h : s.status ≠ .notStarted) (bytes : List Byte) :
    load bytes s = .refused .loadNotAdmitted :=
  if_neg fun hadmitted => h hadmitted.1

theorem run_of_ne_notStarted {s : State} (h : s.status ≠ .notStarted) : run s = .refused .runNotAdmitted :=
  if_neg h

end Sys2Proof.Machine
end

section
/-! The claims of spec/60_exceptions.md, each from the lemmas above. -/

namespace Sys2Proof.Proofs

open Sys2Proof.Machine

/-- Settles O36, by the two ways a step halts; the instruction before a limit halt kept the status Running. -/
theorem haltsArePrecise : Obligations.HaltsArePrecise := by
  intro s t r hstep ht
  rcases step_halted_cases hstep ht with hbefore | ⟨hr, i, n, hd, hf, hafter⟩
  · exact .inl hbefore
  · exact .inr ⟨hr, i, n, effect i s, hd, exec_of_not_faultsIn hf, (effect_status i s).trans (running_of_step hstep), hafter⟩

/-- Settles O37: the halted state has the window and the data accesses of the state before, and for the limit it is the state
after one more instruction. -/
theorem haltReasonsAreRecorded : Obligations.HaltReasonsAreRecorded := by
  intro s t hinv hstep
  refine ⟨fun ht => ?_, fun ht => ?_, fun ht => ?_, faultsIn_of_step_halted hstep,
    fun ht => ⟨(step_limitReasonIsFullCount hstep hinv).mp ht, pc_of_step_limitExceeded hstep ht⟩⟩
  · have hend := (decode_window_endOfProgram_iff t).mp (decode_window_of_step_halted hstep ht)
    exact Nat.le_antisymm (hinv.step hstep).pcInside (by omega)
  · exact ((decode_window_unknownOpcode_iff t).mp (decode_window_of_step_halted hstep ht)).2
  · obtain ⟨-, hop, hlen⟩ := (decode_window_truncated_iff t).mp (decode_window_of_step_halted hstep ht)
    exact ⟨hop, by omega⟩

/-- Settles O48: Halted is neither Running, where a step is a move, nor NotStarted, where a load and a run are admitted. -/
theorem haltedIsFinal : Obligations.HaltedIsFinal := by
  refine ⟨fun s r hs => ?_, fun s r hrun => ?_⟩
  · have hstarted : s.status ≠ .notStarted := by simp [hs]
    have hstopped : s.status ≠ .running := by simp [hs]
    exact ⟨step_halted hs, load_of_ne_notStarted hstarted, run_of_ne_notStarted hstarted,
      fun i hi => (register_of_not_running hstopped i).trans (if_pos hi),
      fun lo hi hle hin => ⟨_, (memoryRange_of_not_running hstopped lo hi).trans (if_pos ⟨hle, hin⟩)⟩⟩
  · obtain ⟨-, -, hstatus, hcount⟩ := run_done hrun
    exact ⟨hstatus, hcount⟩

end Sys2Proof.Proofs
end

section
/-! Facts that the claims of spec/70_reset_and_hazards.md need: what a load leaves in each field and answers, that it and a run keep
the invariant, and what the first step of a loaded image fetches (R16, R40, R157, R182, R183). -/

namespace Sys2Proof.Machine

/-! ### Fields after a load (R182) -/

section
variable (s : State) (bytes : List Byte)

@[simp] theorem State.withImage_mem : (s.withImage bytes).mem = s.mem.writeBytes 0 bytes := rfl
@[simp] theorem State.withImage_pc : (s.withImage bytes).pc = s.pc := rfl
@[simp] theorem State.withImage_count : (s.withImage bytes).count = s.count := rfl
@[simp] theorem State.withImage_status : (s.withImage bytes).status = s.status := rfl
@[simp] theorem State.withImage_loaded : (s.withImage bytes).loaded = true := rfl
@[simp] theorem State.withImage_params : (s.withImage bytes).params = s.params := rfl
@[simp] theorem State.withImage_fetchLimit : (s.withImage bytes).fetchLimit =
    if s.params.fetchMode = .image then bytes.length else s.fetchLimit := by
  cases hm : s.params.fetchMode <;> simp [State.withImage, hm]

/-- Memory after a load: the image from address 0 up, and the rest as before. -/
theorem State.withImage_mem_read (a : Nat) : (s.withImage bytes).mem.read a = bytes.getD a (s.mem.read a) := by
  rw [State.withImage_mem, Memory.read_writeBytes, List.getD_eq_getElem?_getD]
  by_cases ha : a < bytes.length
  · simp [ha]
  · simp [ha]

end

/-- A new engine fetches up to the end of the image loaded into it, or in mode `memory` up to MEMORY_SIZE (R16). -/
theorem State.created_withImage_fetchLimit (p : Params) (bytes : List Byte) :
    ((State.created p).withImage bytes).fetchLimit =
      if p.fetchMode = .image then bytes.length else p.memorySize := by
  rw [State.withImage_fetchLimit, State.created_fetchLimit]
  exact ite_congr rfl (fun _ => rfl) (fun hm => if_neg hm)

/-- The image loaded into a new engine is fetchable to its end, and nothing beyond memory is (R16). -/
theorem State.created_withImage_fetchLimit_bounds {p : Params} {bytes : List Byte} (h : bytes.length ≤ p.memorySize) :
    bytes.length ≤ ((State.created p).withImage bytes).fetchLimit ∧
      ((State.created p).withImage bytes).fetchLimit ≤ p.memorySize := by
  rw [State.created_withImage_fetchLimit]
  split
  · exact ⟨Nat.le_refl _, h⟩
  · exact ⟨h, Nat.le_refl _⟩

/-! ### When a load is admitted and what it answers (R157, R182) -/

theorem load_of_loaded {s : State} (h : s.loaded = true) (bytes : List Byte) : load bytes s = .refused .loadNotAdmitted :=
  if_neg fun hadmitted => by simp [h] at hadmitted

/-- An admitted load fails exactly where the image is larger than memory. -/
theorem load_of_admitted {s : State} (hs : s.status = .notStarted) (hl : s.loaded = false) (bytes : List Byte) :
    load bytes s = if s.params.memorySize < bytes.length then .failed .imageTooLarge else .done (s.withImage bytes) :=
  if_pos ⟨hs, hl⟩

/-! ### The host's operations keep the invariant -/

theorem create_done {p : Params} {s : State} (h : create p = .done s) : p.Legal ∧ s = State.created p := by
  unfold create at h
  split at h
  · rename_i hlegal
    cases h
    exact ⟨hlegal, rfl⟩
  · cases h

/-- Putting an image that fits in memory into an engine that has not started keeps the invariant: the image adds only bytes below
MEMORY_SIZE, and `pc` is still 0, so no new fetch limit is below it. -/
theorem State.Inv.withImage {s : State} (h : s.Inv) (hs : s.status = .notStarted) {bytes : List Byte}
    (hroom : bytes.length ≤ s.params.memorySize) : (s.withImage bytes).Inv where
  paramsLegal := h.paramsLegal
  memCanonical := Memory.wf_writeBytes bytes h.memCanonical 0
  memInside := fun c hc => by
    rcases Memory.mem_writeBytes hc with ⟨-, hlt⟩ | hold
    · rw [Nat.zero_add] at hlt
      exact Nat.lt_of_lt_of_le hlt hroom
    · exact h.memInside c hold
  fetchInside := by
    rw [State.withImage_fetchLimit]
    split
    · exact hroom
    · exact h.fetchInside
  fetchWhole := fun (hm : s.params.fetchMode = .memory) => by simpa [hm] using h.fetchWhole hm
  pcInside := by
    obtain ⟨hpc, -, -⟩ := h.fresh hs
    simp [hpc]
  countInside := h.countInside
  countRunning := h.countRunning
  pcAtLeast := h.pcAtLeast
  pcAtMost := h.pcAtMost
  fresh := h.fresh
  unloaded := by simp

/-! ### The first fetch of a loaded image (R40, R183) -/

/-- An engine at `pc` 0 with its image within the fetch limit fetches what the image begins with. -/
theorem decode_window_withImage {s : State} {bytes : List Byte} {i : Instr} {n : Nat} (hd : decode bytes = .ok (i, n))
    (hpc : s.pc = 0) (hlimit : bytes.length ≤ (s.withImage bytes).fetchLimit) :
    decode (s.withImage bytes).window = .ok (i, n) := by
  obtain ⟨-, hn⟩ := decode_ok_size hd
  rw [State.window_eq_take, decode_take_six, State.withImage_pc, hpc, Nat.sub_zero]
  refine decode_eq_of_take_eq hd ?_
  calc ((s.withImage bytes).mem.readBytes 0 (s.withImage bytes).fetchLimit).take n
      = (s.withImage bytes).mem.readBytes 0 n := by rw [Memory.take_readBytes, Nat.min_eq_left (hn.trans hlimit)]
    _ = ((s.withImage bytes).mem.readBytes 0 bytes.length).take n := by rw [Memory.take_readBytes, Nat.min_eq_left hn]
    _ = bytes.take n := by rw [State.withImage_mem, Memory.readBytes_writeBytes]

/-- The image of a program decodes to the program's first instruction (R61). -/
theorem decode_encodeImage_cons (i : Instr) (rest : List Instr) :
    decode (encodeImage (i :: rest)) = .ok (i, (encode i).length) :=
  decode_encode_append i (encodeImage rest)

end Sys2Proof.Machine
end

section
/-! The claims of spec/70_reset_and_hazards.md, each from the lemmas above. -/

namespace Sys2Proof.Proofs

open Sys2Proof.Machine

/-- Settles O42: a load and a start are admitted in NotStarted only, and a run is a start and steps. -/
theorem hostOperationsKeepTheInvariant : Obligations.HostOperationsKeepTheInvariant := by
  refine ⟨fun p s hcreate => ?_, fun bytes s t h hload => ?_, fun s h hs => h.start hs, fun s r h hrun => ?_⟩
  · obtain ⟨hlegal, rfl⟩ := create_done hcreate
    exact State.created_inv hlegal
  · obtain ⟨hs, -, hroom, rfl⟩ := load_done hload
    exact h.withImage hs hroom
  · obtain ⟨hs, hfinal, -, -⟩ := run_done hrun
    exact hfinal ▸ drive_inv (h.start hs) _

/-- Settles O46: a new engine admits a load, which reads back as the image over memory all zero and sets the bit that a second
load is refused for. -/
theorem loadCopiesTheImage : Obligations.LoadCopiesTheImage := by
  intro p bytes
  have hload := load_of_admitted (s := State.created p) rfl rfl bytes
  refine ⟨fun hlarge => hload.trans (if_pos hlarge), fun hroom => ⟨(State.created p).withImage bytes,
    hload.trans (if_neg (Nat.not_lt.mpr hroom)), fun k b hk => ?_, fun a ha => ?_, fun r => State.created_readReg r p,
    rfl, rfl, rfl, State.created_withImage_fetchLimit p bytes, load_of_loaded rfl⟩⟩
  · rw [State.withImage_mem_read, List.getD_eq_getElem?_getD, hk, Option.getD_some]
  · rw [State.withImage_mem_read, List.getD_eq_default _ _ ha]
    exact Memory.read_nil a

/-- Settles O47: the loaded image lies below the fetch limit from address 0, where `pc` is, and begins with the wire form of the
first instruction. -/
theorem firstInstructionIsAtAddressZero : Obligations.FirstInstructionIsAtAddressZero := by
  intro p i rest s hload
  obtain ⟨-, -, hroom, rfl⟩ := load_done hload
  obtain ⟨himage, hmemory⟩ := State.created_withImage_fetchLimit_bounds hroom
  exact step_decode_ok (State.start_status _) hmemory
    (decode_window_withImage (decode_encodeImage_cons i rest) rfl himage)

end Sys2Proof.Proofs
end

section
/-! The claim about the words that the spec's vectors write out (95_test_vectors.md V4), from the round trip of the codec. -/

namespace Sys2Proof

/-- To decode a word it is enough to know the instruction whose wire form it is (R97). -/
theorem decode_of_encode_eq {w : List Byte} {i : Instr} (h : encode i = w) : decode w = .ok (i, w.length) :=
  h ▸ decode_encode i

end Sys2Proof

namespace Sys2Proof.Proofs

/-- Settles O1: each of the seven words is the wire form of its instruction, so the round trip gives the instruction back. -/
theorem specWordsDecode : Obligations.SpecWordsDecode :=
  ⟨decode_of_encode_eq (by decide), decode_of_encode_eq (by decide), decode_of_encode_eq (by decide),
    decode_of_encode_eq (by decide), decode_of_encode_eq (by decide), decode_of_encode_eq (by decide),
    decode_of_encode_eq (by decide)⟩

end Sys2Proof.Proofs
end
